-- ==== Sys2Proof/Word.lean ====
section
/-! DEFINITION. The words of WMS-1: the 64-bit command word (R70), the 8-bit channel and the Color record (R11). -/

namespace Sys2Proof

/-- A WMS-1 command word, bit 63 the most significant (R70). -/
abbrev Word := BitVec 64

/-- One 8-bit unsigned channel value (R11, R31). -/
abbrev Byte := BitVec 8

/-- A frame-buffer entry: three 8-bit unsigned channels (R11, R31). -/
structure Color where
  r : Byte
  g : Byte
  b : Byte
deriving DecidableEq, Repr

/-- ZERO, the zero color, which is "off" (R11). -/
def Color.zero : Color := ⟨0, 0, 0⟩

end Sys2Proof
end

