-- ==== Sys2Proof/Config.lean ====
section
/-! DEFINITION. The configuration record `Cfg` a model takes (R8), its defaults, and the free values of the model. -/

namespace Sys2Proof

/-- The channel names of a Color. -/
inductive Channel where
  | red
  | green
  | blue
deriving DecidableEq, Repr

/-- WIRE_ORDER: the three channels in the order they leave the pin (R8, R173). -/
structure WireOrder where
  first : Channel
  second : Channel
  third : Channel
deriving DecidableEq, Repr

/-- A cell `(x, y)`: `x` the column, `y` the row (R11). -/
structure Cell where
  x : Nat
  y : Nat
deriving DecidableEq, Repr

/-- The parameters of R8 that belong to the platform, one for all instances: the units' slots, the capable pins, the two
high times, which the one waveform program of a unit makes (R62, R105), and GLYPH, the one process-wide table, which gives
each digit 0..9 its on cells (R160). Times are in nanoseconds. PROG_FITS is supplied by the environment at the INIT step
(R105), so it is not here: it stands in `Machine.SigUnit.progFits`. -/
structure PlatformCfg where
  /-- `SLOTS`, the state-machine slots of one unit. -/
  slots : Nat
  /-- `PIN_OK`, as the list of the pins it is true of. -/
  pinOk : List Nat
  /-- `T0H`, the high time of a 0 bit. -/
  t0h : Nat
  /-- `T1H`, the high time of a 1 bit. -/
  t1h : Nat
  /-- `GLYPH`. -/
  glyph : Vector (List Cell) 10
deriving DecidableEq, Repr

/-- The parameters of R8 that belong to one matrix: each instance holds its own (R225: its own MatrixGeometry).
How the other parameters are divided is the model's choice (notes/assumptions/1.md). -/
structure MatrixCfg where
  /-- `W`, the matrix width in columns. -/
  width : Nat
  /-- `H`, the matrix height in rows. -/
  height : Nat
  /-- `T_RESET`, the latch gap the block holds the line low for at least. -/
  tReset : Nat
  /-- `WIRE_ORDER`. -/
  wireOrder : WireOrder
deriving DecidableEq, Repr

/-- The configuration record `Cfg` of R8: what one instance works under. -/
structure Cfg extends PlatformCfg, MatrixCfg
deriving DecidableEq, Repr

/-- `F_BIT`, the fixed bit rate: 800 kHz (R8, R185). -/
def fBit : Nat := 800000

/-- `T_BIT = 1 / F_BIT`, in nanoseconds: 1250 ns (R8, R180). -/
def tBit : Nat := 1250

/-- The configuration of the model's reset state: the defaults of R8. DESIGN CHOICE (notes/assumptions/1.md) for the
parameters R8 gives no default: PIN_OK true of pins 0..29 (the test choice of 95_test_vectors.md) and GLYPH empty for every digit. -/
def Cfg.default : Cfg where
  width := 5
  height := 5
  slots := 4
  pinOk := List.range 30
  t0h := 400
  t1h := 800
  tReset := 300000
  wireOrder := ⟨.green, .red, .blue⟩
  glyph := Vector.replicate 10 []

/-- FREE VALUE (notes/assumptions/5.md). The outcome of the n-th draw `choose(F)` of INIT (R104): taken modulo the number
of free slots, it says which of them is claimed. Nothing constrains it. -/
opaque Config.freeSlot : Nat → Nat

/-- FREE VALUE (notes/assumptions/9.md). By how many nanoseconds the latch gap at position n of the wire log
exceeds T_RESET (R183: the gap is at least T_RESET). Nothing constrains its values. That it is a function of the position
alone, the same for every instance and after every reset, is the model's choice: the spec leaves each gap free. -/
opaque Config.extraGap : Nat → Nat

/-- FREE VALUE (notes/assumptions/9.md). How many nanoseconds the line stays low after the latch gap at position n of the
wire log before the next frame begins (R184: any time the host spends). Nothing constrains its values. That it is a function
of the position alone, the same for every instance and after every reset, is the model's choice: the spec leaves each idle
time free. -/
opaque Config.idleTime : Nat → Nat

end Sys2Proof
end

