-- ==== Sys2Proof/Syntax.lean ====
section
/-! DEFINITION. The commands of WMS-1: one constructor per row of spec/opcode_table.json (R78). -/

namespace Sys2Proof

/-- A decoded command. Operands are natural numbers (R77: every field is zero-extended to a natural number);
`Instr.wf` says which of them have an encoding. -/
inductive Instr where
  /-- INIT pin (R73, R101). -/
  | init (pin : Nat)
  /-- CLEAR (R120). -/
  | clear
  /-- SET index, color (R123). -/
  | set (index : Nat) (color : Color)
  /-- SETXY x, y, color (R142). -/
  | setxy (x : Nat) (y : Nat) (color : Color)
  /-- COMMIT (R170). -/
  | commit
deriving DecidableEq, Repr

end Sys2Proof
end

