-- ==== Sys2Proof/WellFormed.lean ====
section
/-! DEFINITION. Which commands have an encoding (R77, R86), and which configurations have a meaning (R9). -/

namespace Sys2Proof

/-- A command whose operands all fit their fields (R73 to R75, R77). A Color fits its field by its type. -/
def Instr.wf : Instr → Bool
  | .init pin => decide (pin < 2 ^ 8)
  | .clear => true
  | .set index _ => decide (index < 2 ^ 32)
  | .setxy x y _ => decide (x < 2 ^ 16) && decide (y < 2 ^ 16)
  | .commit => true

/-- The three places of WIRE_ORDER hold three different channels, so it is a permutation of `[R, G, B]` (R9). -/
def WireOrder.isPermutation (o : WireOrder) : Bool :=
  decide (o.first ≠ o.second) && decide (o.first ≠ o.third) && decide (o.second ≠ o.third)

/-- Every on cell of every `GLYPH[d]` lies in the geometry (R9, R160): a condition on the one table and a matrix together. -/
def Cfg.glyphsInside (c : Cfg) : Bool :=
  c.glyph.toList.all fun cells => cells.all fun p => decide (p.x < c.width) && decide (p.y < c.height)

/-- The conditions of R9 on the platform's parameters alone, one line each. -/
def PlatformCfg.wf (c : PlatformCfg) : Bool :=
  (decide (1 ≤ c.slots) && decide (c.slots ≤ 256)) &&
  (decide (0 < c.t0h) && decide (c.t0h < c.t1h) && decide (c.t1h < tBit))

/-- The conditions of R9 on a matrix's parameters alone, one line each. -/
def MatrixCfg.wf (c : MatrixCfg) : Bool :=
  (decide (1 ≤ c.width) && decide (c.width ≤ 65535)) &&
  (decide (1 ≤ c.height) && decide (c.height ≤ 65535)) &&
  decide (c.width * c.height ≤ 2 ^ 32) &&
  decide (0 < c.tReset) &&
  c.wireOrder.isPermutation

/-- The configuration is well-formed: all the conditions of R9. -/
def Cfg.wf (c : Cfg) : Bool := c.toPlatformCfg.wf && c.toMatrixCfg.wf && c.glyphsInside

end Sys2Proof
end

