-- ==== Sys2Proof/Decode.lean ====
section
/-! DEFINITION. The decoder of R79, total on 64-bit words, and the encoder written from the formats R72 to R76. -/

namespace Sys2Proof

/-- Why a word is Illegal (R80). -/
inductive Illegal where
  /-- Opcode 0x00 or 0x06 to 0xFF. -/
  | reservedOpcode (op : Byte)
  /-- An INIT, CLEAR or COMMIT word with a nonzero reserved bit. -/
  | reservedBits (op : Byte)
deriving DecidableEq, Repr

/-- What the decoder answers: `Cmd | Illegal` (R79). -/
inductive Decoded where
  | command (i : Instr)
  | illegal (why : Illegal)
deriving DecidableEq, Repr

/-- `w[lo+len-1:lo]` (R10). -/
def bits (w : Word) (lo len : Nat) : BitVec len := w.extractLsb' lo len

/-- The opcode field `w[63:56]` (R71). -/
def opField (w : Word) : Byte := bits w 56 8

/-- The color field of a SET or SETXY word: r in [23:16], g in [15:8], b in [7:0] (R76). -/
def colorField (w : Word) : Color := ⟨bits w 16 8, bits w 8 8, bits w 0 8⟩

/-- INIT words: bits [55:8] must be zero (R73). -/
def decodeInit (w : Word) : Decoded :=
  if bits w 8 48 = 0 then .command (.init (bits w 0 8).toNat) else .illegal (.reservedBits (opField w))

/-- CLEAR words: bits [55:0] must be zero (R72). -/
def decodeClear (w : Word) : Decoded :=
  if bits w 0 56 = 0 then .command .clear else .illegal (.reservedBits (opField w))

/-- SET words: every bit is part of a field (R74). -/
def decodeSet (w : Word) : Decoded := .command (.set (bits w 24 32).toNat (colorField w))

/-- SETXY words: every bit is part of a field (R75). -/
def decodeSetxy (w : Word) : Decoded :=
  .command (.setxy (bits w 40 16).toNat (bits w 24 16).toNat (colorField w))

/-- COMMIT words: bits [55:0] must be zero (R72). -/
def decodeCommit (w : Word) : Decoded :=
  if bits w 0 56 = 0 then .command .commit else .illegal (.reservedBits (opField w))

/-- The decoder (R79). -/
def decode (w : Word) : Decoded :=
  if opField w = 0x01 then decodeInit w
  else if opField w = 0x02 then decodeClear w
  else if opField w = 0x03 then decodeSet w
  else if opField w = 0x04 then decodeSetxy w
  else if opField w = 0x05 then decodeCommit w
  else .illegal (.reservedOpcode (opField w))

/-- The opcode of a command (R78). -/
def opcode : Instr → Byte
  | .init _ => 0x01
  | .clear => 0x02
  | .set _ _ => 0x03
  | .setxy _ _ _ => 0x04
  | .commit => 0x05

/-- `#RRGGBB`: the 24-bit color field (R76). -/
def colorBits (c : Color) : BitVec 24 := c.r ++ c.g ++ c.b

/-- Bits [55:0] of a command's word: its format's fields, reserved bits zero (R72 to R76, R83). -/
def operandBits : Instr → BitVec 56
  | .init pin => 0#48 ++ BitVec.ofNat 8 pin
  | .clear => 0#56
  | .set index c => BitVec.ofNat 32 index ++ colorBits c
  | .setxy x y c => BitVec.ofNat 16 x ++ BitVec.ofNat 16 y ++ colorBits c
  | .commit => 0#56

/-- The word of a well-formed command (R72 to R78). -/
def encode (i : Instr) : Word := opcode i ++ operandBits i

/-- The command the decoder reads from an instruction whose bits, numbered as spec/opcode_table.json numbers them, are
`w`. Every WMS-1 command is one 64-bit word (R70), so the numbering is the word's own. -/
def decodeTableWord (nbits w : Nat) : Option Instr :=
  match decode (BitVec.ofNat 64 (w % 2 ^ nbits)) with
  | .command i => some i
  | .illegal _ => none

end Sys2Proof
end

