-- ==== Sys2Proof/Machine/State.lean ====
section
/-! DEFINITION. The state of the platform: the block instances, the two signal-generation units with their claim
table, the configuration; and the state after reset (R20, R35, R37, R225). Everything is plain data. -/

namespace Sys2Proof.Machine

/-- The two signal-generation units (R102, R223): unit 0 and unit 1. -/
inductive UnitId where
  | primary
  | secondary
deriving DecidableEq, Repr

/-- PHASE (R27). The value 3 is never taken, so it has no constructor. -/
inductive Phase where
  | idle
  | shift
  | latch
deriving DecidableEq, Repr

/-- The level of the data line (R34): Z, 0 or 1. -/
inductive Level where
  | undriven
  | low
  | high
deriving DecidableEq, Repr

/-- A wire symbol (R33): one bit period, or the line held low for the latch gap. -/
inductive WireSym where
  | bit (b : Bool)
  | latch
deriving DecidableEq, Repr

/-- Who holds a claimed slot (R35): a block instance, by its id, or a claimer of the environment. -/
inductive Owner where
  | inst (id : Nat)
  | env (claimer : Nat)
deriving DecidableEq, Repr

/-- A claim-table entry (R35). -/
inductive Claim where
  | free
  | held (owner : Owner)
deriving DecidableEq, Repr

/-- What ConfigureSlot gave a slot (R105): the pin it drives and its bit rate. -/
structure SlotConf where
  pin : Byte
  rate : Nat
deriving DecidableEq, Repr

/-- One state-machine slot of a unit: its claim-table entry (R35) and its configuration (R105). -/
structure Slot where
  claim : Claim
  conf : Option SlotConf
deriving DecidableEq, Repr

/-- One signal-generation unit (R223): its slots, whether its instruction memory holds the waveform program (R50, R62,
R105), and what the environment answers at present for PROG_FITS of it (R105). -/
structure SigUnit where
  slots : List Slot
  programLoaded : Bool
  progFits : Bool
deriving DecidableEq, Repr

/-- BIND by its fields (R24). The reserved bits are not stored: `BindReg.word` reads them as 0. -/
structure BindReg where
  bound : Bool
  unit : UnitId
  slot : Byte
  pin : Byte
deriving DecidableEq, Repr

/-- BIND = 0 (R24, R37). -/
def BindReg.zero : BindReg := ⟨false, .primary, 0, 0⟩

/-- The frame buffer's entries: (index, color) pairs in canonical form, indexes strictly rising, no entry ZERO. An
unlisted index reads ZERO, which is what INIT makes every entry (R30, R106). -/
abbrev Memory := List (Nat × Color)

/-- The state of one block instance (R20). `id` is the name the instance has in the claim table (R35); `matrix` is its
part of the configuration (R8, R225) and `prog` its host's program, parameters of R20 that no step changes. `fb`
is `none` while it is Undef (R30). -/
structure Inst where
  id : Nat
  matrix : MatrixCfg
  prog : List Word
  pc : Nat
  bind : BindReg
  status : Byte
  fault : Byte
  phase : Phase
  ledptr : BitVec 32
  bitptr : BitVec 5
  fb : Option Memory
  dout : Level
  wire : List WireSym
deriving DecidableEq, Repr

/-- The two agents of one instance (R14): its host and its serializer. -/
inductive Actor where
  | host
  | serializer
deriving DecidableEq, Repr

/-- What may happen next on the platform (R14, R219, R225, R226, R240). -/
inductive Event where
  /-- An agent of the focused instance moves. -/
  | own (a : Actor)
  /-- An agent of the k-th further instance moves (R225). -/
  | peer (k : Nat) (a : Actor)
  /-- The environment claims a FREE slot (R226). -/
  | envClaim (u : UnitId) (slot : Nat) (claimer : Nat)
  /-- The environment releases a slot it holds (R226). -/
  | envRelease (u : UnitId) (slot : Nat)
  /-- The environment changes what it answers for PROG_FITS (R105). -/
  | envProgFits (u : UnitId) (fits : Bool)
  /-- Power-on or any platform reset (R240). -/
  | reset
deriving DecidableEq, Repr

/-- The platform. `platform` is its part of the configuration (R8), which no step changes. `inst` is
the instance in focus, the one `exec` acts on; `peers` are the further instances (R225).
`schedule` and `draws` are the model's own (notes/assumptions/3.md and 5.md): which agents move next, and how many draws
INIT has made. -/
structure State where
  platform : PlatformCfg
  primary : SigUnit
  secondary : SigUnit
  inst : Inst
  peers : List Inst
  schedule : List Event
  draws : Nat
deriving DecidableEq, Repr

/-- Why a step stops the model. The block's own fatal conditions are not here: they are a next state with FAULT set (R214). -/
inductive Fault where
  /-- Raised by a frame-buffer access while `fb` is Undef (R30: no step can read or write it then). Safe: the model
  stops where the spec says no step exists, and no state that meets the invariant of Safety.lean reaches it. -/
  | fbUndef
  /-- Raised by a frame-buffer access to an index that is not an address (R56: an index `>= N`). Safe: the commands check
  their operands first, and no state that meets the invariant of Safety.lean reaches it. -/
  | fbNoSuchEntry
deriving DecidableEq, Repr

/-- Why a step is refused. -/
inductive Refusal where
  /-- An instruction whose meaning is not written. Raised by no arm of exec. Safe. -/
  | notModelled (mnemonic : String)
  /-- Raised by every step of a launch in which an instance's configuration breaks R9 (R9: a model refuses it). Safe. -/
  | illFormedConfig
  /-- Raised by every step of a launch in which two bound instances have the same BIND.PIN (R224 and 93 I19: outside
  the spec, refused). Safe. -/
  | sharedPin
deriving DecidableEq, Repr

/-- An instance after reset (R37), with its name, its matrix and its host's program. -/
def Inst.initial (id : Nat) (matrix : MatrixCfg) (prog : List Word) : Inst where
  id := id
  matrix := matrix
  prog := prog
  pc := 0
  bind := BindReg.zero
  status := 0x00
  fault := 0x00
  phase := .idle
  ledptr := 0
  bitptr := 0
  fb := none
  dout := .undriven
  wire := []

/-- A unit after reset: every slot FREE (R35, R37), nothing loaded or configured (R64); `fits` is the environment's
answer for PROG_FITS. -/
def SigUnit.initial (slots : Nat) (fits : Bool) : SigUnit where
  slots := List.replicate slots ⟨.free, none⟩
  programLoaded := false
  progFits := fits

/-- The machine right after reset (R37, R240, R242): one instance, the configuration `Cfg.default`, no program, PROG_FITS
true of both units (DESIGN CHOICE, notes/assumptions/1.md, 2.md, 4.md and 6.md). -/
def State.reset : State where
  platform := Cfg.default.toPlatformCfg
  primary := SigUnit.initial Cfg.default.slots true
  secondary := SigUnit.initial Cfg.default.slots true
  inst := Inst.initial 0 Cfg.default.toMatrixCfg []
  peers := []
  schedule := []
  draws := 0

end Sys2Proof.Machine
end

