-- ==== Sys2Proof/Machine/Flags.lean ====
section
/-! DEFINITION. The block has no condition codes and no flags (R23). The record of a command's outcome is STATUS, and of
a fatal condition FAULT: this file gives their codes (R211, R213). -/

namespace Sys2Proof.Machine

/-- The results of R211. ERR_DIGIT is the host's: it is reported by the expansion of RENDER and SHOWDIGIT and never
written to STATUS. -/
inductive ResultCode where
  | ok
  | errCoord
  | errIndex
  | errDigit
deriving DecidableEq, Repr

/-- The faults of R213. -/
inductive FaultCode where
  | noSlot
  | unbound
  | reinit
  | illegal
  | pin
deriving DecidableEq, Repr

/-- The result codes (R211). -/
def ResultCode.code : ResultCode → Byte
  | .ok => 0x00
  | .errCoord => 0x01
  | .errIndex => 0x02
  | .errDigit => 0x03

/-- The fault codes (R213). -/
def FaultCode.code : FaultCode → Byte
  | .noSlot => 0x01
  | .unbound => 0x02
  | .reinit => 0x03
  | .illegal => 0x04
  | .pin => 0x05

end Sys2Proof.Machine
end

