-- ==== Sys2Proof/Machine/Operands.lean ====
section
/-! DEFINITION. The operand forms of WMS-1: an immediate pin, an immediate physical index, an immediate coordinate pair
and an immediate color; no operand is a register (R21, R77). Range checks happen at execution (R77). -/

namespace Sys2Proof.Machine

/-- `N = W * H`, the LED count (R8). -/
def ledCount (c : MatrixCfg) : Nat := c.width * c.height

/-- `PIN_OK(pin)` (R8, R109). -/
def pinCapable (c : PlatformCfg) (pin : Nat) : Bool := c.pinOk.contains pin

/-- The index names an entry: `index < N` (R56, R124). -/
def indexInRange (c : MatrixCfg) (index : Nat) : Bool := decide (index < ledCount c)

/-- The cell lies in the geometry: `x < W` and `y < H`, each checked on its own (R142, R145). -/
def coordInRange (c : MatrixCfg) (x y : Nat) : Bool := decide (x < c.width) && decide (y < c.height)

/-- `row_base(y) = y * W` (R140). -/
def rowBase (c : MatrixCfg) (y : Nat) : Nat := y * c.width

/-- `map(x, y)`, the serpentine index transform (R140): even rows left to right, odd rows reversed. It is meant for
cells inside the geometry only. -/
def mapIndex (c : MatrixCfg) (x y : Nat) : Nat :=
  rowBase c y + (if y % 2 = 0 then x else c.width - 1 - x)

/-- The value of one channel of a Color. -/
def channelValue (c : Color) : Channel → Byte
  | .red => c.r
  | .green => c.g
  | .blue => c.b

end Sys2Proof.Machine
end

