-- ==== Sys2Proof/Machine/Ops.lean ====
section
/-! DEFINITION. The named operations every meaning is written over: the frame buffer, the registers, the wire, retiring
with a result, raising a fault, the claim table, reset (R12, R30, R33, R35, R214, R240). -/

namespace Sys2Proof.Machine

/-- The three outcomes of a step. -/
abbrev Out := Host.Outcome State Fault Refusal

/-- Go on from a next state; a stop stays the stop it is. -/
def onNext (o : Out) (f : State → Out) : Out :=
  match o with
  | .next s => f s
  | .fault r => .fault r
  | .refused r => .refused r

/-! ## The frame buffer -/

/-- The entry listed at `i`, ZERO where none is (R106). -/
def Memory.read : Memory → Nat → Color
  | [], _ => Color.zero
  | (j, d) :: m, i => if j = i then d else Memory.read m i

/-- Put `c` at the head, unless it is ZERO, which an unlisted entry reads as. -/
def Memory.cons (i : Nat) (c : Color) (m : Memory) : Memory :=
  if c = Color.zero then m else (i, c) :: m

/-- Write entry `i`, keeping the canonical form. -/
def Memory.write : Memory → Nat → Color → Memory
  | [], i, c => Memory.cons i c []
  | (j, d) :: m, i, c =>
    if i < j then Memory.cons i c ((j, d) :: m)
    else if i = j then Memory.cons i c m
    else (j, d) :: Memory.write m i c

/-- Every listed index is above `lo`. -/
def Memory.above (lo : Nat) (m : Memory) : Bool := m.all fun cell => decide (lo < cell.1)

/-- The canonical form: indexes strictly rising, no entry ZERO. -/
def Memory.wf : Memory → Bool
  | [] => true
  | (i, c) :: m => decide (c ≠ Color.zero) && Memory.above i m && Memory.wf m

/-- Every listed index is below `n`. -/
def Memory.below (n : Nat) (m : Memory) : Bool := m.all fun cell => decide (cell.1 < n)

/-- The frame buffer of the focused instance becomes `m`. -/
def setFb (m : Memory) (s : State) : State := { s with inst := { s.inst with fb := some m } }

/-- `FbRead(i)` (R12): one whole entry. There is no such step while `fb` is Undef (R30), and an index `>= N` is not an
address (R56). -/
def fbRead (i : Nat) (s : State) : Except Fault Color :=
  match s.inst.fb with
  | none => .error .fbUndef
  | some m => if indexInRange s.inst.matrix i then .ok (Memory.read m i) else .error .fbNoSuchEntry

/-- `FbWrite(i, c)` (R12): one whole entry, with the stops of `fbRead`. -/
def fbWrite (i : Nat) (c : Color) (s : State) : Out :=
  match s.inst.fb with
  | none => .fault .fbUndef
  | some m => if indexInRange s.inst.matrix i then .next (setFb (Memory.write m i c) s) else .fault .fbNoSuchEntry

/-- `for i in 0 .. N-1: fb[i] <- ZERO` on a buffer that exists (R121); there is no such step while `fb` is Undef (R30). -/
def fbClear (s : State) : Out :=
  match s.inst.fb with
  | none => .fault .fbUndef
  | some _ => .next (setFb [] s)

/-- The buffer is created with every entry ZERO (R106). -/
def fbCreate (s : State) : State := setFb [] s

/-! ## Retiring, faulting, the serializer's registers, the wire -/

/-- `result(code)`: STATUS takes the code and pc advances by 1 (R12, R22). -/
def retire (r : ResultCode) (s : State) : State :=
  { s with inst := { s.inst with status := r.code, pc := s.inst.pc + 1 } }

/-- `raise Fault(code)`: taking the block's one kind of exception. FAULT takes the code and nothing else changes (R214).
There is no vector, no saved context (R215) and no return (R216): only `resetPlatform` clears FAULT. -/
def raiseFault (f : FaultCode) (s : State) : State :=
  { s with inst := { s.inst with fault := f.code } }

/-- PHASE, LEDPTR and BITPTR take these values (R27, R28). -/
def setSerializer (p : Phase) (k : BitVec 32) (j : BitVec 5) (s : State) : State :=
  { s with inst := { s.inst with phase := p, ledptr := k, bitptr := j } }

/-- `emit(sym)`: append to the wire log (R12, R33). -/
def emit (sym : WireSym) (s : State) : State :=
  { s with inst := { s.inst with wire := s.inst.wire ++ [sym] } }

/-- `dout <- v` (R34). -/
def setDout (v : Level) (s : State) : State := { s with inst := { s.inst with dout := v } }

/-- `BIND <- b` (R24). -/
def setBind (b : BindReg) (s : State) : State := { s with inst := { s.inst with bind := b } }

/-- The check every command but INIT passes before it executes (R100): without a binding it raises F_UNBOUND. -/
def whenBound (s : State) (k : Out) : Out :=
  if s.inst.bind.bound then k else .next (raiseFault .unbound s)

/-! ## The units and the claim table -/

/-- The unit of that name. -/
def unitOf (s : State) : UnitId → SigUnit
  | .primary => s.primary
  | .secondary => s.secondary

/-- The unit of that name becomes `v`. -/
def setUnit (u : UnitId) (v : SigUnit) (s : State) : State :=
  match u with
  | .primary => { s with primary := v }
  | .secondary => { s with secondary := v }

/-- `claimed[u][s]`, where the table has that entry (R35). -/
def claimOf (s : State) (u : UnitId) (slot : Nat) : Option Claim :=
  ((unitOf s u).slots[slot]?).map (·.claim)

/-- `F = { s | s < SLOTS and claimed[u][s] = FREE }` (R101), in rising order. -/
def freeSlots (s : State) (u : UnitId) : List Nat :=
  (List.range s.platform.slots).filter fun i => claimOf s u i == some .free

/-- A unit is usable when it has a free slot and the waveform program can be loaded (R105). -/
def usable (s : State) (u : UnitId) : Bool := !(freeSlots s u).isEmpty && (unitOf s u).progFits

/-- The unit INIT takes: the primary, else the secondary, else none (R102, R103). -/
def pickUnit (s : State) : Option UnitId :=
  if usable s .primary then some .primary
  else if usable s .secondary then some .secondary
  else none

/-- `choose(F)`: an element of a non-empty list, which one is the free value `Config.freeSlot` (R104). -/
def chosenSlot (s : State) (u : UnitId) : Nat :=
  let f := freeSlots s u
  f.getD (Config.freeSlot s.draws % f.length) 0

/-- One more draw has been made (the model's own counter). -/
def countDraw (s : State) : State := { s with draws := s.draws + 1 }

/-- One entry of the unit's slots is replaced. -/
def setSlot (u : UnitId) (slot : Nat) (v : Slot) (s : State) : State :=
  setUnit u { unitOf s u with slots := (unitOf s u).slots.set slot v } s

/-- `claimed[u][s] <- HELD(self)` with `ConfigureSlot(u, s, pin, F_BIT)` (R101, R105). -/
def claimSlot (u : UnitId) (slot : Nat) (pin : Byte) (s : State) : State :=
  setSlot u slot ⟨.held (.inst s.inst.id), some ⟨pin, fBit⟩⟩ s

/-- `LoadProgram(u)`: the unit's instruction memory holds the waveform program (R105). -/
def loadProgram (u : UnitId) (s : State) : State :=
  setUnit u { unitOf s u with programLoaded := true } s

/-- A claim by the environment changes a FREE entry and no other (R226). -/
def envClaimSlot (u : UnitId) (slot claimer : Nat) (s : State) : State :=
  match claimOf s u slot with
  | some .free => setSlot u slot ⟨.held (.env claimer), none⟩ s
  | _ => s

/-- A release by the environment changes an entry the environment holds and no other (R226). -/
def envReleaseSlot (u : UnitId) (slot : Nat) (s : State) : State :=
  match claimOf s u slot with
  | some (.held (.env _)) => setSlot u slot ⟨.free, none⟩ s
  | _ => s

/-- The environment's answer for PROG_FITS changes (R105). -/
def envSetProgFits (u : UnitId) (fits : Bool) (s : State) : State :=
  setUnit u { unitOf s u with progFits := fits } s

/-! ## Reset -/

/-- One instance into the reset state of R37; its name, its matrix and its host's program are no state of the block. -/
def resetInst (i : Inst) : Inst := Inst.initial i.id i.matrix i.prog

/-- The reset event (R240): every instance into the reset state, the claim table all FREE. The configuration, the
environment's answers and the model's own fields stay. -/
def resetPlatform (s : State) : State :=
  { s with
    primary := SigUnit.initial s.platform.slots s.primary.progFits
    secondary := SigUnit.initial s.platform.slots s.secondary.progFits
    inst := resetInst s.inst
    peers := s.peers.map resetInst }

/-! ## Who is on the platform -/

/-- Every block instance (R225), the focused one first. -/
def allInsts (s : State) : List Inst := s.inst :: s.peers

/-- The instances that hold a binding. -/
def boundInsts (s : State) : List Inst := (allInsts s).filter (·.bind.bound)

/-- The configuration an instance works under (R8): the platform's part and its own. -/
def cfgOf (platform : PlatformCfg) (i : Inst) : Cfg where
  toPlatformCfg := platform
  toMatrixCfg := i.matrix

/-- Every instance works under a well-formed configuration (R9). -/
def cfgsWf (s : State) : Bool := (allInsts s).all fun i => (cfgOf s.platform i).wf

/-- No two bound instances have the same BIND.PIN: other launches are outside the spec (R224). -/
def pinsDistinct (s : State) : Bool := decide ((boundInsts s).map (·.bind.pin)).Nodup

end Sys2Proof.Machine
end

