-- ==== Sys2Proof/Machine/Binding.lean ====
section
/-! DEFINITION. The Signal Generator Binding: INIT (R101 to R112). -/

namespace Sys2Proof.Machine

/-- INIT's writes once it has drawn slot `slot` of unit `u` (R101, R105, R106): the claim, the program, the slot's
configuration, BIND, the zeroed buffer, `dout = 0`, PHASE IDLE, LEDPTR and BITPTR 0, result OK. -/
def bindSlot (u : UnitId) (slot pin : Nat) (s : State) : State :=
  retire .ok <|
  setSerializer .idle 0 0 <|
  setDout .low <|
  fbCreate <|
  setBind ⟨true, u, BitVec.ofNat 8 slot, BitVec.ofNat 8 pin⟩ <|
  loadProgram u <|
  claimSlot u slot (BitVec.ofNat 8 pin) s

/-- INIT (R101): F_REINIT, then F_PIN, then the primary and the secondary unit in order, then F_NO_SLOT. -/
def execInit (pin : Nat) (s : State) : Out :=
  if s.inst.bind.bound then .next (raiseFault .reinit s)
  else if !pinCapable s.platform pin then .next (raiseFault .pin s)
  else
    match pickUnit s with
    | some u => .next (countDraw (bindSlot u (chosenSlot s u) pin s))
    | none => .next (raiseFault .noSlot s)

end Sys2Proof.Machine
end

