-- ==== Sys2Proof/Machine/Commit.lean ====
section
/-! DEFINITION. The start of the Commit/Transmit Path: COMMIT (R170, R171). -/

namespace Sys2Proof.Machine

/-- COMMIT (R171): PHASE SHIFT, LEDPTR and BITPTR 0, no result. pc stays at the COMMIT until the latch step of
Serializer.lean retires it (R175). -/
def execCommit (s : State) : Out :=
  whenBound s <| .next (setSerializer .shift 0 0 s)

end Sys2Proof.Machine
end

