-- ==== Sys2Proof/Machine/FrameBuffer.lean ====
section
/-! DEFINITION. The Frame Buffer: CLEAR and SET (R120 to R127). -/

namespace Sys2Proof.Machine

/-- CLEAR (R121): every entry ZERO, result OK. -/
def execClear (s : State) : Out :=
  whenBound s <| onNext (fbClear s) fun t => .next (retire .ok t)

/-- SET (R124): an index `>= N` is reported and nothing is written; else one entry is written. -/
def execSet (index : Nat) (color : Color) (s : State) : Out :=
  whenBound s <|
    if indexInRange s.inst.matrix index then onNext (fbWrite index color s) fun t => .next (retire .ok t)
    else .next (retire .errIndex s)

end Sys2Proof.Machine
end

