-- ==== Sys2Proof/Machine/Mapper.lean ====
section
/-! DEFINITION. The Coordinate Mapper: SETXY (R140 to R147). -/

namespace Sys2Proof.Machine

/-- SETXY (R142): a cell outside the geometry is reported and nothing is written; else the entry `map(x, y)` is
written, the write of SET. -/
def execSetxy (x y : Nat) (color : Color) (s : State) : Out :=
  whenBound s <|
    if coordInRange s.inst.matrix x y then
      onNext (fbWrite (mapIndex s.inst.matrix x y) color s) fun t => .next (retire .ok t)
    else .next (retire .errCoord s)

end Sys2Proof.Machine
end

