-- ==== Sys2Proof/Machine/Dispatch.lean ====
section
/-! DEFINITION. Dispatch: one arm per constructor of Instr (R78, the `execute d` of R100). -/

namespace Sys2Proof.Machine

def exec (i : Instr) (s : State) : Host.Outcome State Fault Refusal :=
  match i with
  | .init pin => Sys2Proof.Machine.execInit pin s
  | .clear => Sys2Proof.Machine.execClear s
  | .set index color => Sys2Proof.Machine.execSet index color s
  | .setxy x y color => Sys2Proof.Machine.execSetxy x y color s
  | .commit => Sys2Proof.Machine.execCommit s

end Sys2Proof.Machine
end

