-- ==== Sys2Proof/Machine/Serializer.lean ====
section
/-! DEFINITION. The serializer agent (R172 to R178): the wire bits of a Color, the shift step, the latch step. -/

namespace Sys2Proof.Machine

/-- `WIRE_ORDER[i]` for `i` in 0..2 (R173). -/
def wireChannel (o : WireOrder) (i : Nat) : Channel :=
  if i = 0 then o.first else if i = 1 then o.second else o.third

/-- `wireBit(c, j)` for `0 <= j < 24`: the channels in WIRE_ORDER, each most significant bit first (R173). -/
def wireBit (o : WireOrder) (c : Color) (j : Nat) : Bool :=
  (channelValue c (wireChannel o (j / 8))).getLsbD (7 - j % 8)

/-- `wireWord(c)`, the 24 wire bits as one word (R173). -/
def wireWord (o : WireOrder) (c : Color) : BitVec 24 :=
  channelValue c o.first ++ channelValue c o.second ++ channelValue c o.third

/-- The pointers after bit `j` of LED `k` is out (R174): the next bit, the next LED, or the latch gap. -/
def advance (n : Nat) (k : BitVec 32) (j : BitVec 5) (s : State) : State :=
  if j.toNat < 23 then setSerializer .shift k (j + 1) s
  else if k.toNat < n - 1 then setSerializer .shift (k + 1) 0 s
  else setSerializer .latch k 0 s

/-- The shift step (R174): bit BITPTR of entry LEDPTR goes out. -/
def shiftStep (s : State) : Out :=
  match fbRead s.inst.ledptr.toNat s with
  | .error r => .fault r
  | .ok c =>
    .next (advance (ledCount s.inst.matrix) s.inst.ledptr s.inst.bitptr
      (emit (.bit (wireBit s.inst.matrix.wireOrder c s.inst.bitptr.toNat)) s))

/-- The latch step (R175): the latch gap goes out, PHASE is IDLE, the COMMIT retires with OK. -/
def latchStep (s : State) : State :=
  retire .ok (setSerializer .idle s.inst.ledptr s.inst.bitptr (emit .latch s))

/-- The serializer's step (R172): enabled only while PHASE is not IDLE, and never on a faulted instance (R214). Where it
is not enabled, nothing changes (`hold`, R12). -/
def serializerStep (s : State) : Out :=
  if s.inst.fault = 0 then
    match s.inst.phase with
    | .idle => .next s
    | .shift => shiftStep s
    | .latch => .next (latchStep s)
  else .next s

/-- The 24 bit symbols of one Color. -/
def colorSyms (o : WireOrder) (c : Color) : List WireSym :=
  (List.range 24).map fun j => .bit (wireBit o c j)

/-- The frame of R176: the bits of every entry in physical index order, then one Latch. -/
def frame (c : MatrixCfg) (m : Memory) : List WireSym :=
  ((List.range (ledCount c)).flatMap fun k => colorSyms c.wireOrder (Memory.read m k)) ++ [.latch]

end Sys2Proof.Machine
end

