-- ==== Sys2Proof/Machine/Agents.lean ====
section
/-! DEFINITION. The agents and how their steps interleave (R14, R100, R219, R225, R226, R240). -/

namespace Sys2Proof.Machine

/-- The word the host presents: `prog[pc]`, none at the end of the program (R100). -/
def fetch (i : Inst) : Option Word := i.prog[i.pc]?

/-- The host's step (R100, R218). A held step changes nothing (R12): the instance is faulted, the program is over, or
the instance is busy. The check for a binding is each command's own first check (`whenBound`). -/
def hostStep (s : State) : Out :=
  if s.inst.fault = 0 then
    match fetch s.inst with
    | none => .next s
    | some w =>
      match s.inst.phase with
      | .shift => .next s
      | .latch => .next s
      | .idle =>
        match decode w with
        | .illegal _ => .next (raiseFault .illegal s)
        | .command i => exec i s
  else .next s

/-- One step of one of the focused instance's agents. -/
def runActor (a : Actor) (s : State) : Out :=
  match a with
  | .host => hostStep s
  | .serializer => serializerStep s

/-- The one agent of an instance that can be enabled: the host while PHASE is IDLE, else the serializer (R219). -/
def enabledActor (i : Inst) : Actor :=
  match i.phase with
  | .idle => .host
  | .shift => .serializer
  | .latch => .serializer

/-- The focus and the k-th peer change places; with no such peer nothing changes. -/
def swapPeer (k : Nat) (s : State) : State :=
  match s.peers[k]? with
  | none => s
  | some p => { s with inst := p, peers := s.peers.set k s.inst }

/-- A step of a peer (R225): the same step, taken in that peer's place. -/
def peerStep (k : Nat) (a : Actor) (s : State) : Out :=
  match s.peers[k]? with
  | none => .next s
  | some _ => onNext (runActor a (swapPeer k s)) fun t => .next (swapPeer k t)

/-- What one event does. -/
def runEvent (e : Event) (s : State) : Out :=
  match e with
  | .own a => runActor a s
  | .peer k a => peerStep k a s
  | .envClaim u slot claimer => .next (envClaimSlot u slot claimer s)
  | .envRelease u slot => .next (envReleaseSlot u slot s)
  | .envProgFits u fits => .next (envSetProgFits u fits s)
  | .reset => .next (resetPlatform s)

/-- Whether an agent of an instance is enabled, that is, its step is no hold (R100, R172, R214). -/
def actorEnabled (a : Actor) (i : Inst) : Bool :=
  match a with
  | .host => decide (i.fault = 0) && decide (i.phase = .idle) && (fetch i).isSome
  | .serializer => decide (i.fault = 0) && decide (i.phase ≠ .idle)

/-- What happens where nothing is scheduled (notes/assumptions/3.md): the focused instance's own agent moves while it is
enabled, else the first further instance's enabled serializer, so that no serializer is starved (R187). -/
def unscheduledEvent (s : State) : Event :=
  if actorEnabled (enabledActor s.inst) s.inst then .own (enabledActor s.inst)
  else
    match s.peers.findIdx? (actorEnabled .serializer) with
    | some k => .peer k .serializer
    | none => .own (enabledActor s.inst)

/-- The event that comes next: the first one scheduled, if one is. -/
def nextEvent (s : State) : Event :=
  match s.schedule with
  | [] => unscheduledEvent s
  | e :: _ => e

/-- One step of a platform the spec gives a meaning: the next event happens, and is taken off the schedule. -/
def scheduledStep (s : State) : Out := runEvent (nextEvent s) { s with schedule := s.schedule.tail }

/-- One step. An ill-formed configuration is refused (R9), and so is a launch with a shared pin (R224, 93 I19). -/
def platformStep (s : State) : Out :=
  if !cfgsWf s then .refused .illFormedConfig
  else if !pinsDistinct s then .refused .sharedPin
  else scheduledStep s

/-- The program with the word `w` at index `n`; a shorter program is first filled up with zero words, which stand
before `n` and are never fetched again. -/
def placeWord (n : Nat) (w : Word) : List Word → List Word
  | p => p.take n ++ List.replicate (n - p.length) 0 ++ w :: p.drop (n + 1)

/-- `w` is the word the focused instance's host presents next, and its own agent is the one to move. -/
def presentWord (w : Word) (s : State) : State :=
  { s with inst := { s.inst with prog := placeWord s.inst.pc w s.inst.prog }, schedule := [] }

end Sys2Proof.Machine
end

