-- ==== Sys2Proof/Machine/Step.lean ====
section
/-! DEFINITION. The one step of the machine, and where the host places an instruction for it. -/

namespace Sys2Proof.Machine

/-- One step of the platform (R13, R14, R100). -/
def step (s : State) : Host.Outcome State Fault Refusal := platformStep s

/-- `s` with the word `w` as the next one its host presents (R100). Every command is one 64-bit word (R70). A held
instance (faulted, or busy with a COMMIT) still executes no command: see notes/assumptions/2.md. -/
def State.withFetchWord (s : State) (nbits w : Nat) : State :=
  presentWord (BitVec.ofNat 64 (w % 2 ^ nbits)) s

end Sys2Proof.Machine
end

