-- ==== Sys2Proof/Machine/Glyph.lean ====
section
/-! DEFINITION. The host-side pseudo-instructions RENDER and SHOWDIGIT (R84, R160 to R166): what the host's assembler
expands them into. They have no opcode and never reach the command port. -/

namespace Sys2Proof.Machine

/-- `GLYPH[digit]`, the on cells of a digit 0..9 in the process-wide table (R160). -/
def glyphCells (c : PlatformCfg) (digit : Nat) : List Cell := c.glyph.toList.getD digit []

/-- The on cells of a digit, each once, in order of y ascending, then x ascending (R161). -/
def renderCells (c : Cfg) (digit : Nat) : List Cell :=
  (List.range c.height).flatMap fun y =>
    ((List.range c.width).map fun x => (⟨x, y⟩ : Cell)).filter fun p => (glyphCells c.toPlatformCfg digit).contains p

/-- What the expander gives the host: commands, or a result it reports without sending anything. -/
inductive Expansion where
  | commands (l : List Instr)
  | reported (r : ResultCode)
deriving DecidableEq, Repr

/-- `RENDER digit, color` (R161). -/
def expandRender (c : Cfg) (digit : Nat) (color : Color) : Expansion :=
  if digit > 9 then .reported .errDigit
  else .commands ((renderCells c digit).map fun p => .setxy p.x p.y color)

/-- `SHOWDIGIT digit, color` (R164): CLEAR, the RENDER, COMMIT; an out-of-range digit sends nothing at all. -/
def expandShowDigit (c : Cfg) (digit : Nat) (color : Color) : Expansion :=
  match expandRender c digit color with
  | .reported r => .reported r
  | .commands l => .commands (.clear :: l ++ [.commit])

/-- The commands of a list executed one after the other on an idle instance. -/
def execAll : List Instr → State → Out
  | [], s => .next s
  | i :: is, s => onNext (exec i s) (execAll is)

end Sys2Proof.Machine
end

