-- ==== Sys2Proof/Machine/Assembler.lean ====
section
/-! DEFINITION. The host's assembler (R83, R84, R86): source lines, as lists of characters, to command words. -/

namespace Sys2Proof.Machine

/-- Why the assembler produces no word for a line (R86). `badOperand` is a token that is no number or no color of R83. R86 has
the line reported, not the reason: which reason is named where several hold is the model's choice (notes/assumptions/12.md). -/
inductive AsmError where
  | unknownMnemonic
  | operandCount
  | badOperand
  | negative
  | pinTooLarge
  | indexTooLarge
  | coordTooLarge
  | channelTooLarge
deriving DecidableEq, Repr

/-- What one line gives: command words, a result reported to the caller (R161, R164), or a refusal (R86). -/
inductive AsmLine where
  | words (l : List Word)
  | reported (r : ResultCode)
  | refused (e : AsmError)
deriving DecidableEq, Repr

/-! ## Tokens -/

/-- The characters of R83 that a brace stands for. -/
def openBrace : Char := Char.ofNat 123

def closeBrace : Char := Char.ofNat 125

/-- A blank is a space or a tab: the model's choice, R83 does not say (notes/assumptions/12.md). -/
def isBlank (ch : Char) : Bool := ch == ' ' || ch == '\t'

/-- A `;` starts a comment to the end of the line (R83). -/
def stripComment (l : List Char) : List Char := l.takeWhile (· != ';')

/-- A token without the blanks at its two ends. That blanks may stand there is the model's choice where R83's forms show none
(notes/assumptions/12.md). -/
def trim (l : List Char) : List Char := ((l.dropWhile isBlank).reverse.dropWhile isBlank).reverse

/-- Split at commas that stand outside braces. `cur` holds the current operand, reversed; `inside` says that a brace is
open. The forms of R83 show a blank after a comma and none before one: blanks on both sides of every operand are accepted,
or left out, by the model's choice (notes/assumptions/12.md). -/
def splitOperands : List Char → List Char → Bool → List (List Char)
  | [], cur, _ => [trim cur.reverse]
  | ch :: rest, cur, inside =>
    if ch == ',' && !inside then trim cur.reverse :: splitOperands rest [] inside
    else if ch == openBrace then splitOperands rest (ch :: cur) true
    else if ch == closeBrace then splitOperands rest (ch :: cur) false
    else splitOperands rest (ch :: cur) inside

/-- The operands of a line after its mnemonic; a blank rest has none. -/
def operandsOf (l : List Char) : List (List Char) :=
  if (trim l).isEmpty then [] else splitOperands l [] false

def decDigit (ch : Char) : Option Nat :=
  if 48 ≤ ch.toNat ∧ ch.toNat ≤ 57 then some (ch.toNat - 48) else none

/-- A hexadecimal digit, in capitals or small letters: R83 does not say which, so both are accepted by the model's choice
(notes/assumptions/12.md). -/
def hexDigit (ch : Char) : Option Nat :=
  if 48 ≤ ch.toNat ∧ ch.toNat ≤ 57 then some (ch.toNat - 48)
  else if 65 ≤ ch.toNat ∧ ch.toNat ≤ 70 then some (ch.toNat - 55)
  else if 97 ≤ ch.toNat ∧ ch.toNat ≤ 102 then some (ch.toNat - 87)
  else none

/-- Digits in a base, most significant first; none for an empty or malformed token. -/
def digitsValue (base : Nat) (digit : Char → Option Nat) : List Char → Option Nat → Option Nat
  | [], acc => acc
  | ch :: rest, acc =>
    match digit ch with
    | none => none
    | some d => digitsValue base digit rest (some (acc.getD 0 * base + d))

/-- A number in decimal or as `0x` hexadecimal (R83). -/
def parseNumber : List Char → Option Nat
  | '0' :: 'x' :: rest => digitsValue 16 hexDigit rest none
  | l => digitsValue 10 decDigit l none

/-- A number operand: a natural number, or the refusal of a negative or malformed one (R86). -/
def parseOperand : List Char → Except AsmError Nat
  | '-' :: rest => if (parseNumber rest).isSome then .error .negative else .error .badOperand
  | l =>
    match parseNumber l with
    | some n => .ok n
    | none => .error .badOperand

/-- One decimal channel `0..255` of a color in braces (R83, R86). Blanks around it are accepted: R83 is silent on them, so
this is the model's choice (notes/assumptions/12.md). -/
def parseChannel (l : List Char) : Except AsmError Byte :=
  match digitsValue 10 decDigit (trim l) none with
  | none => .error .badOperand
  | some n => if n ≤ 255 then .ok (BitVec.ofNat 8 n) else .error .channelTooLarge

/-- A color in braces: three decimal channels (R83), with blanks around them accepted (notes/assumptions/12.md). -/
def parseChannels (l : List Char) : Except AsmError Color :=
  match splitOperands l [] false with
  | [r, g, b] => do .ok ⟨← parseChannel r, ← parseChannel g, ← parseChannel b⟩
  | _ => .error .badOperand

/-- A color: `#RRGGBB`, six hexadecimal digits, or three decimal channels in braces (R83). -/
def parseColor (l : List Char) : Except AsmError Color :=
  match l with
  | [] => .error .badOperand
  | ch :: rest =>
    if ch == '#' then
      match digitsValue 16 hexDigit rest none with
      | some n =>
        if rest.length = 6 then
          .ok ⟨BitVec.ofNat 8 (n / 65536), BitVec.ofNat 8 (n / 256), BitVec.ofNat 8 n⟩
        else .error .badOperand
      | none => .error .badOperand
    else if ch == openBrace && rest.getLast? == some closeBrace then parseChannels rest.dropLast
    else .error .badOperand

/-! ## Lines -/

/-- An operand above its field's range is refused (R77, R86). -/
def within (limit : Nat) (e : AsmError) (n : Nat) : Except AsmError Nat :=
  if n < limit then .ok n else .error e

def asmOfExcept (r : Except AsmError AsmLine) : AsmLine :=
  match r with
  | .ok l => l
  | .error e => .refused e

/-- The word of one command. -/
def oneWord (i : Instr) : AsmLine := .words [encode i]

/-- The words of an expansion, or the result it reports (R84). -/
def asmOfExpansion : Expansion → AsmLine
  | .commands l => .words (l.map encode)
  | .reported r => .reported r

def asmInit : List (List Char) → Except AsmError AsmLine
  | [p] => do .ok (oneWord (.init (← within (2 ^ 8) .pinTooLarge (← parseOperand p))))
  | _ => .error .operandCount

def asmPlain (i : Instr) : List (List Char) → Except AsmError AsmLine
  | [] => .ok (oneWord i)
  | _ => .error .operandCount

def asmSet : List (List Char) → Except AsmError AsmLine
  | [i, c] => do
    let index ← within (2 ^ 32) .indexTooLarge (← parseOperand i)
    .ok (oneWord (.set index (← parseColor c)))
  | _ => .error .operandCount

def asmSetxy : List (List Char) → Except AsmError AsmLine
  | [x, y, c] => do
    let x ← within (2 ^ 16) .coordTooLarge (← parseOperand x)
    let y ← within (2 ^ 16) .coordTooLarge (← parseOperand y)
    .ok (oneWord (.setxy x y (← parseColor c)))
  | _ => .error .operandCount

/-- The digit of a RENDER or SHOWDIGIT; any number outside 0..9, a negative one too, is no refusal but the reported result
ERR_DIGIT (R86), so a negative one is read as a digit above 9. Any token with a minus sign counts as negative, `-0` too: R83
gives numbers no sign, so this is the model's choice (notes/assumptions/12.md). -/
def parseDigit (l : List Char) : Except AsmError Nat :=
  match parseOperand l with
  | .error .negative => .ok 10
  | r => r

def asmGlyph (f : Nat → Color → Expansion) : List (List Char) → Except AsmError AsmLine
  | [d, c] => do
    let digit ← parseDigit d
    .ok (asmOfExpansion (f digit (← parseColor c)))
  | _ => .error .operandCount

/-- One source line (R83, R84, R86). Where R83 is silent the model chooses (notes/assumptions/12.md): blanks before the
mnemonic and at the end of the line are accepted, the mnemonic ends at the first blank, and a line with nothing on it but
blanks and a comment gives no word. -/
def assembleLine (c : Cfg) (line : List Char) : AsmLine :=
  let text := trim (stripComment line)
  let mnemonic := text.takeWhile fun ch => !isBlank ch
  let operands := operandsOf (text.dropWhile fun ch => !isBlank ch)
  if text.isEmpty then .words []
  else if mnemonic == ['I', 'N', 'I', 'T'] then asmOfExcept (asmInit operands)
  else if mnemonic == ['C', 'L', 'E', 'A', 'R'] then asmOfExcept (asmPlain .clear operands)
  else if mnemonic == ['S', 'E', 'T'] then asmOfExcept (asmSet operands)
  else if mnemonic == ['S', 'E', 'T', 'X', 'Y'] then asmOfExcept (asmSetxy operands)
  else if mnemonic == ['C', 'O', 'M', 'M', 'I', 'T'] then asmOfExcept (asmPlain .commit operands)
  else if mnemonic == ['R', 'E', 'N', 'D', 'E', 'R'] then asmOfExcept (asmGlyph (expandRender c) operands)
  else if mnemonic == ['S', 'H', 'O', 'W', 'D', 'I', 'G', 'I', 'T'] then
    asmOfExcept (asmGlyph (expandShowDigit c) operands)
  else .refused .unknownMnemonic

/-- A source text: its program, with the results reported and the first refused line, each by line number (R86: the
assembler reports the line; the first line is number 0, the model's choice, notes/assumptions/12.md). -/
structure Assembly where
  program : List Word
  reports : List (Nat × ResultCode)
  refusedAt : Option (Nat × AsmError)
deriving DecidableEq, Repr

/-- Assemble lines from line number `n` on; a refused line ends the assembly with no program. -/
def assembleFrom (c : Cfg) : Nat → List (List Char) → Assembly
  | _, [] => ⟨[], [], none⟩
  | n, line :: rest =>
    match assembleLine c line with
    | .refused e => ⟨[], [], some (n, e)⟩
    | .reported r =>
      let a := assembleFrom c (n + 1) rest
      { a with reports := (n, r) :: a.reports }
    | .words l =>
      let a := assembleFrom c (n + 1) rest
      match a.refusedAt with
      | none => { a with program := l ++ a.program }
      | some _ => a

/-- Assemble a whole source text. R86 has the assembler report the line and does not say how lines are numbered: the first
line is number 0, the model's choice (notes/assumptions/12.md). -/
def assemble (c : Cfg) (lines : List (List Char)) : Assembly := assembleFrom c 0 lines

end Sys2Proof.Machine
end

