-- ==== Sys2Proof/Machine/Chain.lean ====
section
/-! DEFINITION. The LED-chain observation model of R188: outside the block, used only for claims about what the LEDs
show. -/

namespace Sys2Proof.Machine

/-- The bits since the last Latch, and the bits of the frame the last Latch closed. -/
structure ChainView where
  pending : List Bool
  latched : Option (List Bool)
deriving DecidableEq, Repr

/-- The chain takes one symbol: a bit goes on down the chain, a Latch makes the LEDs apply what they took. -/
def chainStep (v : ChainView) : WireSym → ChainView
  | .bit b => { v with pending := v.pending ++ [b] }
  | .latch => ⟨[], some v.pending⟩

/-- The chain after a wire log. Nothing is known before the first Latch (R241). -/
def chainView (wire : List WireSym) : ChainView := wire.foldl chainStep ⟨[], none⟩

/-- The 24 bits LED `i` took: each LED takes the first 24 bits it receives and forwards the rest. -/
def ledBits (i : Nat) (frameBits : List Bool) : List Bool := (frameBits.drop (24 * i)).take 24

/-- Eight bits, most significant first, as a channel value. -/
def byteOfBits (l : List Bool) : Byte :=
  BitVec.ofNat 8 (l.foldl (fun acc b => 2 * acc + b.toNat) 0)

/-- The place of a channel in WIRE_ORDER. -/
def channelPlace (o : WireOrder) (ch : Channel) : Nat :=
  if o.first = ch then 0 else if o.second = ch then 1 else 2

/-- The color that 24 wire bits give, read back through an LED part's own channel order. -/
def colorOfBits (o : WireOrder) (l : List Bool) : Color :=
  let byteAt (ch : Channel) : Byte := byteOfBits ((l.drop (8 * channelPlace o ch)).take 8)
  ⟨byteAt .red, byteAt .green, byteAt .blue⟩

/-- What LED `i` of a chain with channel order `o` shows after a wire log (R188). None where no claim is made: before the
first Latch (R241), or for an LED that took fewer than 24 bits. -/
def ledShows (o : WireOrder) (wire : List WireSym) (i : Nat) : Option Color :=
  match (chainView wire).latched with
  | none => none
  | some frameBits =>
    if (ledBits i frameBits).length = 24 then some (colorOfBits o (ledBits i frameBits)) else none

end Sys2Proof.Machine
end

