-- ==== Sys2Proof/Machine/Waveform.lean ====
section
/-! DEFINITION. The waveform on the pin that a wire log stands for (R180 to R185, R187), in segments of a level and a
time in nanoseconds. The machine's steps have no time (R187): these are functions of the wire log. -/

namespace Sys2Proof.Machine

/-- The line stays at one level for so many nanoseconds. -/
structure Segment where
  level : Level
  ns : Nat
deriving DecidableEq, Repr

/-- `TbH`: the high time of a bit (R180). -/
def highTime (c : Cfg) (b : Bool) : Nat := if b then c.t1h else c.t0h

/-- `TbL = T_BIT - TbH` (R180). -/
def lowTime (c : Cfg) (b : Bool) : Nat := tBit - highTime c b

/-- `T_gap`: the latch gap at position `n` of the wire log, at least T_RESET (R183). That the gap depends on the position
alone is the model's choice (notes/assumptions/9.md). -/
def latchGap (c : Cfg) (n : Nat) : Nat := c.tReset + Config.extraGap n

/-- The waveform of the symbol at position `n` of the wire log: a high and a low part for a bit (R180), low throughout
for a latch gap (R183). -/
def waveform (c : Cfg) (n : Nat) : WireSym → List Segment
  | .bit b => [⟨.high, highTime c b⟩, ⟨.low, lowTime c b⟩]
  | .latch => [⟨.low, latchGap c n⟩]

/-- Between the latch gap at position `n` and a symbol after it the line stays low for whatever time the host spends before
its next COMMIT (R184): the free value `Config.idleTime`, by the position alone (the model's choice,
notes/assumptions/9.md). After a bit there is no such time (R182). -/
def idleAfter (n : Nat) : WireSym → List WireSym → List Segment
  | .latch, _ :: _ => [⟨.low, Config.idleTime n⟩]
  | .latch, [] => []
  | .bit _, _ => []

/-- The waveform of a wire log that starts at position `n`: inside a frame no gap between the symbols (R181, R182), between
two frames the latch gap and the host's idle time (R183, R184). -/
def lineTrace (c : Cfg) : Nat → List WireSym → List Segment
  | _, [] => []
  | n, sym :: rest => waveform c n sym ++ idleAfter n sym rest ++ lineTrace c (n + 1) rest

/-- How long a waveform lasts. -/
def duration (segs : List Segment) : Nat := (segs.map (·.ns)).sum

end Sys2Proof.Machine
end

