-- ==== Sys2Proof/Machine/Observe.lean ====
section
/-! DEFINITION. The observation port (R227): the registers by number (R24 to R29), the frame buffer, the wire log and
the claim table. Reading has no effect; no command uses it. -/

namespace Sys2Proof.Machine

/-- The UNIT bit (R24): 0 primary, 1 secondary. -/
def unitBit : UnitId → BitVec 1
  | .primary => 0
  | .secondary => 1

/-- BIND as a 32-bit register: BOUND [0], UNIT [1], SLOT [15:8], PIN [23:16], reserved bits 0 (R24). -/
def BindReg.word (b : BindReg) : BitVec 32 :=
  0#8 ++ b.pin ++ b.slot ++ 0#6 ++ unitBit b.unit ++ BitVec.ofBool b.bound

/-- PHASE as a 2-bit register (R27). -/
def phaseBits : Phase → BitVec 2
  | .idle => 0
  | .shift => 1
  | .latch => 2

/-- GEOM: W in [15:0], H in [31:16], hardwired (R29). -/
def geomWord (c : MatrixCfg) : BitVec 32 := BitVec.ofNat 16 c.height ++ BitVec.ofNat 16 c.width

/-- The register of that number of one instance, as the port reads it: 0x0 BIND, 0x1 STATUS, 0x2 FAULT, 0x3 PHASE,
0x4 LEDPTR, 0x5 BITPTR, 0x6 GEOM; 0x7 to 0xF are reserved and read 0 (R24 to R29). -/
def readRegister (i : Inst) (number : BitVec 4) : BitVec 32 :=
  if number = 0x0 then i.bind.word
  else if number = 0x1 then i.status.setWidth 32
  else if number = 0x2 then i.fault.setWidth 32
  else if number = 0x3 then (phaseBits i.phase).setWidth 32
  else if number = 0x4 then i.ledptr
  else if number = 0x5 then i.bitptr.setWidth 32
  else if number = 0x6 then geomWord i.matrix
  else 0

/-- An entry of the frame buffer, once BOUND = 1. -/
def observeFb (i : Inst) (index : Nat) : Option Color :=
  if i.bind.bound && indexInRange i.matrix index then i.fb.map fun m => Memory.read m index else none

/-- The wire log. -/
def observeWire (i : Inst) : List WireSym := i.wire

/-- An entry of the claim table. -/
def observeClaim (s : State) (u : UnitId) (slot : Nat) : Option Claim := claimOf s u slot

end Sys2Proof.Machine
end

