-- ==== Sys2Proof/Safety.lean ====
section
/-! DEFINITION. What counts as a safe run: launches inside the spec, the end of a run, the order of use, and the
invariants of the machine (R9, R22 to R35, R61, R224, R244). -/

namespace Sys2Proof.Machine

/-- A launch the spec gives a meaning: well-formed configurations (R9) and no shared pin (R224). -/
abbrev InSpec (s : State) : Prop := cfgsWf s = true ∧ pinsDistinct s = true

/-- The run of an instance has ended well (R244). -/
abbrev EndedWell (i : Inst) : Prop := i.pc = i.prog.length ∧ i.phase = .idle ∧ i.fault = 0

/-- An instance is stuck: only reset frees it (R214). -/
abbrev Stuck (i : Inst) : Prop := i.fault ≠ 0

/-- The host of the instance can execute the word `w` now: not faulted, not busy, `w` at pc (R100). -/
abbrev Ready (i : Inst) (w : Word) : Prop := i.fault = 0 ∧ i.phase = .idle ∧ fetch i = some w

/-- The step that comes is no reset. -/
abbrev NoReset (s : State) : Prop := nextEvent s ≠ .reset

/-- `n` steps, one after the other, ending at the first stop. -/
def runSteps : Nat → State → Out
  | 0, s => .next s
  | n + 1, s => onNext (runSteps n s) step

/-! ## Endless runs and weak fairness (R187) -/

/-- An endless run: at step `n` the event `ev n` happens. Every interleaving of the agents is one (R219). -/
abbrev IsRun (r : Nat → State) (ev : Nat → Event) : Prop :=
  ∀ n, step { r n with schedule := [ev n] } = .next (r (n + 1))

/-- The event that is a step of the serializer of instance number `k`, the focused one being number 0 (R225). -/
def serializerEvent : Nat → Event
  | 0 => .own .serializer
  | k + 1 => .peer k .serializer

/-- The serializer of instance number `k` is enabled. -/
abbrev SerializerEnabled (s : State) (k : Nat) : Prop :=
  ∃ i, (allInsts s)[k]? = some i ∧ actorEnabled .serializer i = true

/-- The serializers are weakly fair (R187, 92_eei_decisions.md D32): one that stays enabled from some step on moves at that
step or later. -/
abbrev WeaklyFair (r : Nat → State) (ev : Nat → Event) : Prop :=
  ∀ k n, (∀ m, n ≤ m → SerializerEnabled (r m) k) → ∃ m, n ≤ m ∧ ev m = serializerEvent k

/-! ## The order of use (R244) -/

/-- The word is an INIT. -/
def isInitWord (w : Word) : Bool :=
  match decode w with
  | .command (.init _) => true
  | _ => false

/-- The word is a command that may follow the INIT. -/
def isUseWord (w : Word) : Bool :=
  match decode w with
  | .command (.init _) => false
  | .command _ => true
  | .illegal _ => false

/-- A well-formed host program (R244): INIT, then any of the other commands. -/
def orderOfUse : List Word → Bool
  | [] => false
  | w :: ws => isInitWord w && ws.all isUseWord

/-- An instance on its way through a well-formed program: before the INIT it is unbound at pc 0, after it it is bound
and past it; the only faults are INIT's own F_NO_SLOT and F_PIN, raised at pc 0. -/
abbrev Orderly (i : Inst) : Prop :=
  orderOfUse i.prog = true ∧
  (i.bind.bound = true → 1 ≤ i.pc ∧ i.fault = 0) ∧
  (i.bind.bound = false → i.pc = 0 ∧ i.phase = .idle ∧
    (i.fault = 0 ∨ i.fault = FaultCode.noSlot.code ∨ i.fault = FaultCode.pin.code))

/-! ## Invariants -/

/-- The frame buffer is in canonical form and lists entries of the matrix only (R30). -/
abbrev FrameBufferOk (i : Inst) : Prop :=
  ∀ m, i.fb = some m → Memory.wf m = true ∧ Memory.below (ledCount i.matrix) m = true

/-- The registers of an instance hold legal values (R24 to R28, R30, R34, R211, R213). -/
structure RegistersOk (c : PlatformCfg) (i : Inst) : Prop where
  /-- Unbound: everything INIT or a later command writes is still at reset (R37). -/
  unbound : i.bind.bound = false →
    i.bind = BindReg.zero ∧ i.fb = none ∧ i.dout = .undriven ∧ i.wire = [] ∧ i.phase = .idle ∧ i.status = 0 ∧ i.pc = 0
  /-- Bound: the buffer exists, BIND names a slot and a capable pin (R24), and `dout`, the level between two steps, is low:
in IDLE and LATCH by R34, in SHIFT by the model's reading of R34 (notes/assumptions/9.md). -/
  bound : i.bind.bound = true →
    i.fb.isSome = true ∧ i.dout = .low ∧ i.bind.slot.toNat < c.slots ∧ pinCapable c i.bind.pin.toNat = true
  /-- The pointers during SHIFT (R28). -/
  shift : i.phase = .shift → i.ledptr.toNat < ledCount i.matrix ∧ i.bitptr.toNat < 24
  /-- Outside SHIFT the bit pointer is 0 (R101, R174). -/
  noShift : i.phase ≠ .shift → i.bitptr = 0
  /-- Busy: no fault, and pc points at the COMMIT (R22, R214). -/
  busy : i.phase ≠ .idle → i.fault = 0 ∧ fetch i = some (encode .commit)
  /-- Only the results of R211 that a command raises. -/
  status : i.status.toNat ≤ 2
  /-- Only the faults of R213. -/
  fault : i.fault.toNat ≤ 5
  /-- pc does not pass the end of the program (R22). -/
  pc : i.pc ≤ i.prog.length

/-- The claim table and the bindings agree (R35, R61): the table has SLOTS entries a unit; instances have different names;
a bound instance holds its slot, on a unit with the program loaded and the slot configured (R105); a slot an instance
holds is the one it is bound to. -/
structure ClaimsOk (s : State) : Prop where
  length : ∀ u, (unitOf s u).slots.length = s.platform.slots
  names : ((allInsts s).map (·.id)).Nodup
  holds : ∀ i ∈ allInsts s, i.bind.bound = true →
    (unitOf s i.bind.unit).slots[i.bind.slot.toNat]? = some ⟨.held (.inst i.id), some ⟨i.bind.pin, fBit⟩⟩ ∧
    (unitOf s i.bind.unit).programLoaded = true
  held : ∀ u slot id, claimOf s u slot = some (.held (.inst id)) →
    ∃ i ∈ allInsts s, i.id = id ∧ i.bind.bound = true ∧ i.bind.unit = u ∧ i.bind.slot.toNat = slot

end Sys2Proof.Machine
end

