-- ==== Sys2Proof/Certificates/Slice0/Obligations.lean ====
section
/-! DEFINITION. The statements for the provers, from the numbered rules of spec/. Every statement is about every state
and every configuration, unless it says that it is about the reset state or about a written word. -/

open Sys2Proof Sys2Proof.Machine

/-! ## Reset -/

/-- R37 for the power-on state: every register, the buffer (which the port cannot read), the line, the wire log, the
claim table and GEOM. -/
def Obligations.PowerOnStateHasTheResetValues : Prop :=
  State.reset.inst.pc = 0 ∧ State.reset.inst.bind.word = 0 ∧ State.reset.inst.status = 0x00 ∧
  State.reset.inst.fault = 0x00 ∧ State.reset.inst.phase = .idle ∧ State.reset.inst.ledptr = 0 ∧
  State.reset.inst.bitptr = 0 ∧ State.reset.inst.fb = none ∧ State.reset.inst.dout = .undriven ∧
  State.reset.inst.wire = [] ∧ (∀ i, observeFb State.reset.inst i = none) ∧
  (∀ u slot, slot < State.reset.platform.slots → claimOf State.reset u slot = some .free) ∧
  readRegister State.reset.inst 0x6 = geomWord State.reset.inst.matrix

/-- R37 and R240: the reset event puts every instance into the reset state and the claim table into all FREE. The
configurations, the names and the programs are no state of the spec and stay (the model's choice,
notes/assumptions/1.md, 2.md and 4.md). -/
def Obligations.ResetEventRestoresEveryInstance : Prop :=
  ∀ s es, InSpec s → s.schedule = .reset :: es →
    ∃ t, step s = .next t ∧
      (∀ i ∈ allInsts t, i.pc = 0 ∧ i.bind.word = 0 ∧ i.status = 0x00 ∧ i.fault = 0x00 ∧ i.phase = .idle ∧
        i.ledptr = 0 ∧ i.bitptr = 0 ∧ i.fb = none ∧ i.dout = .undriven ∧ i.wire = []) ∧
      (∀ i ∈ allInsts t, readRegister i 0x6 = geomWord i.matrix) ∧
      (∀ u slot, slot < s.platform.slots → claimOf t u slot = some .free) ∧ t.platform = s.platform ∧
      (allInsts t).map (fun i => (i.id, i.matrix, i.prog)) = (allInsts s).map (fun i => (i.id, i.matrix, i.prog))

/-- From R8, R9, R160 and R225: where the configuration of the platform or of any instance breaks one of the listed
conditions, every step is refused. That the one GLYPH has to fit every instance's geometry, and that one instance's
ill-formed part refuses every step of the platform, is the model's choice (notes/assumptions/1.md). -/
def Obligations.IllFormedConfigurationIsRefused : Prop :=
  ∀ s : State,
    ¬ ((1 ≤ s.platform.slots ∧ s.platform.slots ≤ 256) ∧
       (0 < s.platform.t0h ∧ s.platform.t0h < s.platform.t1h ∧ s.platform.t1h < 1250) ∧
       ∀ i ∈ allInsts s,
         (1 ≤ i.matrix.width ∧ i.matrix.width ≤ 65535 ∧ 1 ≤ i.matrix.height ∧ i.matrix.height ≤ 65535) ∧
         i.matrix.width * i.matrix.height ≤ 2 ^ 32 ∧ 0 < i.matrix.tReset ∧
         [i.matrix.wireOrder.first, i.matrix.wireOrder.second, i.matrix.wireOrder.third].Perm [.red, .green, .blue] ∧
         ∀ d p, d < 10 → p ∈ glyphCells s.platform d → p.x < i.matrix.width ∧ p.y < i.matrix.height) →
    step s = .refused .illFormedConfig

/-- R224 with 93 I19: a launch in which two bound instances have the same pin is refused (that the refusal stands at
the step is the model's choice, notes/assumptions/7.md). -/
def Obligations.SharedPinLaunchIsRefused : Prop :=
  ∀ (s : State) (a b : Nat) (i j : Inst), cfgsWf s = true → a ≠ b →
    (allInsts s)[a]? = some i → (allInsts s)[b]? = some j →
    i.bind.bound = true → j.bind.bound = true → i.bind.pin = j.bind.pin →
    step s = .refused .sharedPin

/-! ## Encoding -/

/-- R85: the encoded examples, both ways. -/
def Obligations.EncodedExamplesOfTheSpec : Prop :=
  (∀ p ∈ [(Instr.init 7, 0x0100000000000007#64), (Instr.clear, 0x0200000000000000#64),
      (Instr.set 3 ⟨255, 0, 0⟩, 0x0300000003FF0000#64), (Instr.set 24 ⟨0x12, 0x34, 0x56⟩, 0x0300000018123456#64),
      (Instr.setxy 3 0 ⟨255, 0, 0⟩, 0x0400030000FF0000#64), (Instr.setxy 3 1 ⟨255, 0, 0⟩, 0x0400030001FF0000#64),
      (Instr.setxy 4 4 ⟨0, 0, 255⟩, 0x04000400040000FF#64), (Instr.commit, 0x0500000000000000#64)],
    encode p.1 = p.2 ∧ decode p.2 = .command p.1)

/-- R79 with R77: the decoder, each field written as arithmetic on the word's number. -/
def Obligations.DecoderReadsEveryField : Prop :=
  ∀ w : Word,
    let n := w.toNat
    let color : Color := ⟨BitVec.ofNat 8 (n / 2 ^ 16), BitVec.ofNat 8 (n / 2 ^ 8), BitVec.ofNat 8 n⟩
    (n / 2 ^ 56 = 1 → n / 2 ^ 8 % 2 ^ 48 = 0 → decode w = .command (.init (n % 2 ^ 8))) ∧
    (n / 2 ^ 56 = 2 → n % 2 ^ 56 = 0 → decode w = .command .clear) ∧
    (n / 2 ^ 56 = 3 → decode w = .command (.set (n / 2 ^ 24 % 2 ^ 32) color)) ∧
    (n / 2 ^ 56 = 4 → decode w = .command (.setxy (n / 2 ^ 40 % 2 ^ 16) (n / 2 ^ 24 % 2 ^ 16) color)) ∧
    (n / 2 ^ 56 = 5 → n % 2 ^ 56 = 0 → decode w = .command .commit) ∧
    ((∃ why, decode w = .illegal why) ↔
      (n / 2 ^ 56 = 0 ∨ 5 < n / 2 ^ 56) ∨ (n / 2 ^ 56 = 1 ∧ n / 2 ^ 8 % 2 ^ 48 ≠ 0) ∨
      ((n / 2 ^ 56 = 2 ∨ n / 2 ^ 56 = 5) ∧ n % 2 ^ 56 ≠ 0))

/-- Decoding the encoded word of a well-formed command gives it back, every operand at every value. -/
def Obligations.DecodeOfEncodeIsTheCommand : Prop :=
  ∀ i : Instr, i.wf = true → decode (encode i) = .command i

/-- R81: every word decodes to a command or to Illegal, and to no two of them; a word that decodes to a command is the
word of that command, so no two words decode to the same one. -/
def Obligations.EveryCommandHasOneWord : Prop :=
  (∀ w : Word, (∃ i, decode w = .command i ∧ ∀ j, decode w = .command j → j = i) ∨ (∃ why, decode w = .illegal why)) ∧
  (∀ (w : Word) (i : Instr), decode w = .command i → i.wf = true ∧ encode i = w) ∧
  (∀ (v w : Word) (i : Instr), decode v = .command i → decode w = .command i → v = w)

/-- R85 with R83: the assembler writes the words of R85 for its source lines. -/
def Obligations.AssemblerWritesTheExampleWords : Prop :=
  (∀ p ∈ [(['I', 'N', 'I', 'T', ' ', '7'], 0x0100000000000007#64),
      (['C', 'L', 'E', 'A', 'R'], 0x0200000000000000#64),
      (['S', 'E', 'T', ' ', '3', ',', ' ', openBrace, '2', '5', '5', ',', '0', ',', '0', closeBrace],
        0x0300000003FF0000#64),
      (['S', 'E', 'T', ' ', '2', '4', ',', ' ', '#', '1', '2', '3', '4', '5', '6'], 0x0300000018123456#64),
      (['S', 'E', 'T', 'X', 'Y', ' ', '3', ',', ' ', '0', ',', ' ', openBrace, '2', '5', '5', ',', '0', ',', '0',
        closeBrace], 0x0400030000FF0000#64),
      (['S', 'E', 'T', 'X', 'Y', ' ', '4', ',', ' ', '4', ',', ' ', openBrace, '0', ',', '0', ',', '2', '5', '5',
        closeBrace], 0x04000400040000FF#64),
      (['S', 'E', 'T', 'X', 'Y', ' ', '3', ',', ' ', '1', ',', ' ', openBrace, '2', '5', '5', ',', '0', ',', '0',
        closeBrace], 0x0400030001FF0000#64),
      (['C', 'O', 'M', 'M', 'I', 'T'], 0x0500000000000000#64)],
    ∀ c : Cfg, assembleLine c p.1 = .words [p.2])

/-! ## The host step -/

/-- R100: a host step on a ready instance is the decoded command's meaning; the schedule is used up by one event
(the schedule is the model's own, notes/assumptions/3.md). -/
def Obligations.StepRunsTheDecodedCommand : Prop :=
  ∀ s w i, InSpec s → Ready s.inst w → decode w = .command i →
    (s.schedule = [] → step s = exec i s) ∧
    (∀ es, s.schedule = .own .host :: es → step s = exec i { s with schedule := es })

/-- R225: a step of another instance is the same step taken in its place; the focused instance stays as it is. With
nothing scheduled it is the first further instance with an enabled serializer that moves, where the focused instance's own
agent is held (R187's fairness). Focus, peers and schedule are the model's form (notes/assumptions/3.md and 4.md). -/
def Obligations.PeerStepIsTheSameStepInItsPlace : Prop :=
  (∀ s t k p a es, InSpec s → s.schedule = .peer k a :: es → s.peers[k]? = some p →
    runActor a { s with schedule := es, inst := p, peers := s.peers.set k s.inst } = .next t →
    step s = .next { t with inst := s.inst, peers := s.peers.set k t.inst }) ∧
  (∀ s t k p, InSpec s → s.schedule = [] → (Stuck s.inst ∨ (s.inst.phase = .idle ∧ fetch s.inst = none)) →
    s.peers[k]? = some p → p.fault = 0 → p.phase ≠ .idle →
    (∀ j q, j < k → s.peers[j]? = some q → Stuck q ∨ q.phase = .idle) →
    serializerStep { s with inst := p, peers := s.peers.set k s.inst } = .next t →
    step s = .next { t with inst := s.inst, peers := s.peers.set k t.inst })

/-- R80, R100, R213: an illegal word raises F_ILLEGAL, bound or not, and nothing else changes; the schedule is used up by
one event (the schedule is the model's own, notes/assumptions/3.md). -/
def Obligations.IllegalWordRaisesIllegal : Prop :=
  ∀ s w why, InSpec s → Ready s.inst w → decode w = .illegal why →
    (s.schedule = [] → step s = .next { s with inst := { s.inst with fault := 0x04 } }) ∧
    (∀ es, s.schedule = .own .host :: es →
      step s = .next { s with schedule := es, inst := { s.inst with fault := 0x04 } })

/-- R213, R218: without a binding every command but INIT raises F_UNBOUND, whatever its operands, and nothing else
changes. -/
def Obligations.UnboundCommandRaisesUnbound : Prop :=
  ∀ i s, s.inst.bind.bound = false → (∀ pin, i ≠ .init pin) →
    exec i s = .next { s with inst := { s.inst with fault := 0x02 } }

/-- R100, R12, R172: when a step is held (faulted, program over, busy; the serializer: faulted or idle) nothing changes,
and a run that ended well stays as it is while no further
instance has a serializer at work (R244; the schedule is the model's own, notes/assumptions/3.md). -/
def Obligations.HeldStepChangesNothing : Prop :=
  ∀ s es, InSpec s →
    (s.schedule = .own .host :: es → (Stuck s.inst ∨ fetch s.inst = none ∨ s.inst.phase ≠ .idle) →
      step s = .next { s with schedule := es }) ∧
    (s.schedule = .own .serializer :: es → (Stuck s.inst ∨ s.inst.phase = .idle) →
      step s = .next { s with schedule := es }) ∧
    (s.schedule = [] → (Stuck s.inst ∨ EndedWell s.inst) → (∀ p ∈ s.peers, Stuck p ∨ p.phase = .idle) →
      step s = .next s)

/-- R219: the host and the serializer of one instance are never both enabled. -/
def Obligations.HostAndSerializerAreNeverBothEnabled : Prop :=
  ∀ s, hostStep s = .next s ∨ serializerStep s = .next s

/-! ## INIT -/

/-- R102, R106, R107: a successful INIT. The unit taken is the primary, or the secondary where the primary has no usable
slot; some free slot of it is claimed and no other slot of either unit changes; the instance is as R101 writes it, and the other
instances, the platform's configuration and the schedule are unchanged.
The slot is the free value of notes/assumptions/5.md, and the statement holds for every one; that the unit records the loaded
program and the slot its configuration is the model's reading of R105 (notes/assumptions/8.md). -/
def Obligations.InitBindsOneFreeSlot : Prop :=
  ∀ pin s u,
    let canUse := fun v => (∃ n, n < s.platform.slots ∧ claimOf s v n = some .free) ∧ (unitOf s v).progFits = true
    s.inst.bind.bound = false → pinCapable s.platform pin = true →
    ((u = .primary ∧ canUse .primary) ∨ (u = .secondary ∧ ¬ canUse .primary ∧ canUse .secondary)) →
    ∃ slot t m, exec (.init pin) s = .next t ∧
      slot < s.platform.slots ∧ claimOf s u slot = some .free ∧
      claimOf t u slot = some (.held (.inst s.inst.id)) ∧
      (∀ v n, (v ≠ u ∨ n ≠ slot) → (unitOf t v).slots[n]? = (unitOf s v).slots[n]?) ∧
      (unitOf t u).programLoaded = true ∧
      (unitOf t u).slots[slot]? = some ⟨.held (.inst s.inst.id), some ⟨BitVec.ofNat 8 pin, 800000⟩⟩ ∧
      t.inst = { s.inst with
        pc := s.inst.pc + 1, bind := ⟨true, u, BitVec.ofNat 8 slot, BitVec.ofNat 8 pin⟩, status := 0x00,
        phase := .idle, ledptr := 0, bitptr := 0, fb := some m, dout := .low } ∧
      (∀ i, Memory.read m i = Color.zero) ∧
      t.peers = s.peers ∧ t.platform = s.platform ∧ t.schedule = s.schedule

/-- R103, R108, R109: INIT's faults and their order; nothing but FAULT changes. `canUse` is R105's usable unit: a FREE slot
and PROG_FITS. -/
def Obligations.InitFaultsInOrder : Prop :=
  ∀ pin s,
    let canUse := fun v => (∃ n, n < s.platform.slots ∧ claimOf s v n = some .free) ∧ (unitOf s v).progFits = true
    (s.inst.bind.bound = true → exec (.init pin) s = .next { s with inst := { s.inst with fault := 0x03 } }) ∧
    (s.inst.bind.bound = false → pin ∉ s.platform.pinOk →
      exec (.init pin) s = .next { s with inst := { s.inst with fault := 0x05 } }) ∧
    (s.inst.bind.bound = false → pin ∈ s.platform.pinOk → ¬ canUse .primary → ¬ canUse .secondary →
      exec (.init pin) s = .next { s with inst := { s.inst with fault := 0x01 } })

/-- R110: INIT either retires with OK or raises a fault. -/
def Obligations.InitRetiresOrFaults : Prop :=
  ∀ pin s, ∃ t, exec (.init pin) s = .next t ∧
    ((t.inst.status = 0x00 ∧ t.inst.pc = s.inst.pc + 1 ∧ t.inst.fault = s.inst.fault ∧ t.inst.bind.bound = true) ∨
     (t = { s with inst := { s.inst with fault := t.inst.fault } } ∧
       (t.inst.fault = 0x01 ∨ t.inst.fault = 0x03 ∨ t.inst.fault = 0x05)))

/-- The frame of INIT: the wire log, the instance's name, matrix and program, the other instances, the configuration and the
schedule; a faulting INIT changes FAULT alone; a successful one leaves every slot but the one BIND then names. -/
def Obligations.InitFrame : Prop :=
  ∀ pin s t, s.platform.wf = true → exec (.init pin) s = .next t →
    t.platform = s.platform ∧ t.peers = s.peers ∧ t.schedule = s.schedule ∧
    t.inst.id = s.inst.id ∧ t.inst.matrix = s.inst.matrix ∧ t.inst.prog = s.inst.prog ∧ t.inst.wire = s.inst.wire ∧
    (t.inst.bind = s.inst.bind → t = { s with inst := { s.inst with fault := t.inst.fault } }) ∧
    (t.inst.bind ≠ s.inst.bind → t.inst.fault = s.inst.fault ∧
      (∀ v, v ≠ t.inst.bind.unit → unitOf t v = unitOf s v) ∧
      (∀ n, n ≠ t.inst.bind.slot.toNat →
        (unitOf t t.inst.bind.unit).slots[n]? = (unitOf s t.inst.bind.unit).slots[n]?) ∧
      (unitOf t t.inst.bind.unit).progFits = (unitOf s t.inst.bind.unit).progFits)

/-! ## CLEAR and SET -/

/-- R121: CLEAR makes every entry ZERO, with result OK, and changes nothing else. -/
def Obligations.ClearZeroesEveryEntry : Prop :=
  ∀ s m, s.inst.bind.bound = true → s.inst.fb = some m →
    ∃ m', exec .clear s =
        .next { s with inst := { s.inst with fb := some m', status := 0x00, pc := s.inst.pc + 1 } } ∧
      ∀ i, Memory.read m' i = Color.zero

/-- R122: CLEAR is idempotent and has no effect on the line. -/
def Obligations.ClearIsIdempotent : Prop :=
  ∀ s t u, s.inst.bind.bound = true → exec .clear s = .next t → exec .clear t = .next u →
    u.inst.fb = t.inst.fb ∧ t.inst.wire = s.inst.wire ∧ t.inst.dout = s.inst.dout

/-- R124, R125: SET writes one entry inside the buffer and reports an index outside it. -/
def Obligations.SetWritesOrReports : Prop :=
  ∀ index color s m, s.inst.bind.bound = true → s.inst.fb = some m → Memory.wf m = true →
    (s.inst.matrix.width * s.inst.matrix.height ≤ index →
      exec (.set index color) s = .next { s with inst := { s.inst with status := 0x02, pc := s.inst.pc + 1 } }) ∧
    (index < s.inst.matrix.width * s.inst.matrix.height →
      ∃ m', exec (.set index color) s =
          .next { s with inst := { s.inst with fb := some m', status := 0x00, pc := s.inst.pc + 1 } } ∧
        Memory.read m' index = color ∧ ∀ j, j ≠ index → Memory.read m' j = Memory.read m j)

/-! ## SETXY -/

/-- R142, R145, R147: SETXY writes the serpentine entry of a cell inside the matrix and reports a cell outside it. -/
def Obligations.SetxyWritesOrReports : Prop :=
  ∀ x y color s m, s.inst.bind.bound = true → s.inst.fb = some m → Memory.wf m = true →
    let index := y * s.inst.matrix.width + (if y % 2 = 0 then x else s.inst.matrix.width - 1 - x)
    ((s.inst.matrix.width ≤ x ∨ s.inst.matrix.height ≤ y) →
      exec (.setxy x y color) s = .next { s with inst := { s.inst with status := 0x01, pc := s.inst.pc + 1 } }) ∧
    (x < s.inst.matrix.width → y < s.inst.matrix.height →
      ∃ m', exec (.setxy x y color) s =
          .next { s with inst := { s.inst with fb := some m', status := 0x00, pc := s.inst.pc + 1 } } ∧
        Memory.read m' index = color ∧ ∀ j, j ≠ index → Memory.read m' j = Memory.read m j)

/-- R143: the mapping is a bijection from the geometry onto `[0, N)`, row by row, so the order in which two different
cells are written does not change the buffer. -/
def Obligations.MapIsABijection : Prop :=
  ∀ c : MatrixCfg,
    (∀ x y, x < c.width → y < c.height →
      y * c.width ≤ mapIndex c x y ∧ mapIndex c x y ≤ y * c.width + (c.width - 1) ∧
      mapIndex c x y < c.width * c.height) ∧
    (∀ x y x' y', x < c.width → y < c.height → x' < c.width → y' < c.height →
      mapIndex c x y = mapIndex c x' y' → x = x' ∧ y = y') ∧
    (∀ i, i < c.width * c.height → ∃ x y, x < c.width ∧ y < c.height ∧ mapIndex c x y = i) ∧
    (∀ (m : Memory) (p q : Cell) (d e : Color) (i : Nat), Memory.wf m = true → p ≠ q →
      p.x < c.width → p.y < c.height → q.x < c.width → q.y < c.height →
      Memory.read (Memory.write (Memory.write m (mapIndex c p.x p.y) d) (mapIndex c q.x q.y) e) i =
        Memory.read (Memory.write (Memory.write m (mapIndex c q.x q.y) e) (mapIndex c p.x p.y) d) i)

/-- R141: the last LED of a row is next on the wire to the first LED of the row above it in number. -/
def Obligations.RowsAreJoinedOnTheWire : Prop :=
  ∀ (c : MatrixCfg) (y : Nat), 1 ≤ c.width →
    let x := if y % 2 = 0 then c.width - 1 else 0
    mapIndex c 0 0 = 0 ∧ mapIndex c x y = y * c.width + (c.width - 1) ∧
    mapIndex c x (y + 1) = mapIndex c x y + 1

/-- R212: a reported error changes STATUS and pc only. -/
def Obligations.ReportedErrorChangesStatusAndPcOnly : Prop :=
  ∀ s, s.inst.bind.bound = true →
    (∀ index color, s.inst.matrix.width * s.inst.matrix.height ≤ index →
      exec (.set index color) s = .next { s with inst := { s.inst with status := 0x02, pc := s.inst.pc + 1 } }) ∧
    (∀ x y color, s.inst.matrix.width ≤ x ∨ s.inst.matrix.height ≤ y →
      exec (.setxy x y color) s = .next { s with inst := { s.inst with status := 0x01, pc := s.inst.pc + 1 } })

/-- The frame of CLEAR, SET and SETXY: only the buffer, STATUS, FAULT and pc can change; FAULT only without a binding,
and then nothing else; and of the buffer only the entry stored to (SET: `index`; SETXY: `mapIndex`; CLEAR: all). -/
def Obligations.BufferCommandFrame : Prop :=
  ∀ i s t, (i = .clear ∨ (∃ index color, i = .set index color) ∨ (∃ x y color, i = .setxy x y color)) →
    exec i s = .next t →
    t = { s with inst := { s.inst with
            fb := t.inst.fb, status := t.inst.status, fault := t.inst.fault, pc := t.inst.pc } } ∧
    (s.inst.bind.bound = true → t.inst.fault = s.inst.fault) ∧
    (s.inst.bind.bound = false →
      t.inst.fb = s.inst.fb ∧ t.inst.status = s.inst.status ∧ t.inst.pc = s.inst.pc) ∧
    (∀ index color, i = .set index color → ∀ m m', s.inst.fb = some m → Memory.wf m = true → t.inst.fb = some m' →
      ∀ a, (a ≠ index ∨ indexInRange s.inst.matrix index = false) → Memory.read m' a = Memory.read m a) ∧
    (∀ x y color, i = .setxy x y color → ∀ m m', s.inst.fb = some m → Memory.wf m = true → t.inst.fb = some m' →
      ∀ a, (a ≠ mapIndex s.inst.matrix x y ∨ coordInRange s.inst.matrix x y = false) → Memory.read m' a = Memory.read m a)

/-! ## COMMIT and the serializer -/

/-- R171: COMMIT starts the transmission; no result, pc stays. -/
def Obligations.CommitStartsTheTransmission : Prop :=
  ∀ s, s.inst.bind.bound = true →
    exec .commit s = .next { s with inst := { s.inst with phase := .shift, ledptr := 0, bitptr := 0 } }

/-- The frame of COMMIT: only PHASE, LEDPTR and BITPTR, or without a binding only FAULT, can change. -/
def Obligations.CommitFrame : Prop :=
  ∀ s t, exec .commit s = .next t →
    t = { s with inst := { s.inst with
            phase := t.inst.phase, ledptr := t.inst.ledptr, bitptr := t.inst.bitptr, fault := t.inst.fault } } ∧
    (s.inst.bind.bound = true → t.inst.fault = s.inst.fault) ∧
    (s.inst.bind.bound = false →
      t.inst.phase = s.inst.phase ∧ t.inst.ledptr = s.inst.ledptr ∧ t.inst.bitptr = s.inst.bitptr)

/-- R173: the order of the 24 wire bits, by channel and as one word, for the two orders the rule names. -/
def Obligations.WireBitsFollowTheWireOrder : Prop :=
  ∀ (c : Color) (j : Nat), j < 24 →
    (∀ o, wireBit o c j = (wireWord o c).getLsbD (23 - j)) ∧
    (∀ o, wireBit o c j = (channelValue c (if j < 8 then o.first else if j < 16 then o.second else o.third)).getLsbD
      (7 - j % 8)) ∧
    wireWord ⟨.green, .red, .blue⟩ c = c.g ++ c.r ++ c.b ∧
    wireWord ⟨.red, .green, .blue⟩ c = c.r ++ c.g ++ c.b ∧
    wireWord ⟨.green, .red, .blue⟩ ⟨255, 0, 0⟩ = 0b000000001111111100000000#24 ∧
    wireWord ⟨.red, .green, .blue⟩ ⟨255, 0, 0⟩ = 0b111111110000000000000000#24

/-- R174: the shift step. -/
def Obligations.ShiftStepSendsOneBit : Prop :=
  ∀ s m, s.inst.fault = 0 → s.inst.phase = .shift → s.inst.fb = some m →
    let k := s.inst.ledptr
    let j := s.inst.bitptr
    let sym := WireSym.bit (wireBit s.inst.matrix.wireOrder (Memory.read m k.toNat) j.toNat)
    k.toNat < s.inst.matrix.width * s.inst.matrix.height → j.toNat < 24 →
    serializerStep s = .next { s with inst :=
      if j.toNat < 23 then { s.inst with wire := s.inst.wire ++ [sym], bitptr := j + 1 }
      else if k.toNat < s.inst.matrix.width * s.inst.matrix.height - 1 then
        { s.inst with wire := s.inst.wire ++ [sym], bitptr := 0, ledptr := k + 1 }
      else { s.inst with wire := s.inst.wire ++ [sym], bitptr := 0, phase := .latch } }

/-- R175: the latch step sends the Latch, frees the host and retires the COMMIT with OK. -/
def Obligations.LatchStepRetiresTheCommit : Prop :=
  ∀ s, s.inst.fault = 0 → s.inst.phase = .latch →
    serializerStep s = .next { s with inst := { s.inst with
      wire := s.inst.wire ++ [.latch], phase := .idle, status := 0x00, pc := s.inst.pc + 1 } }

/-- R174 over a whole frame: after the COMMIT and `n` shift steps the pointers are the quotient and the rest of `n` by
24, and the wire log has grown by the first `n` bits of the frame; after `24 * N` of them PHASE is LATCH.
The empty schedule, under which only this instance moves, is the model's own (notes/assumptions/3.md). -/
def Obligations.ShiftProgressOfACommit : Prop :=
  ∀ s m n, InSpec s → s.schedule = [] → Ready s.inst (encode .commit) → s.inst.bind.bound = true →
    s.inst.fb = some m →
    let total := s.inst.matrix.width * s.inst.matrix.height
    let bitSyms := (List.range total).flatMap fun k =>
      (List.range 24).map fun j => WireSym.bit (wireBit s.inst.matrix.wireOrder (Memory.read m k) j)
    (n < 24 * total →
      runSteps (n + 1) s = .next { s with inst := { s.inst with
        phase := .shift, ledptr := BitVec.ofNat 32 (n / 24), bitptr := BitVec.ofNat 5 (n % 24),
        wire := s.inst.wire ++ bitSyms.take n } }) ∧
    (n = 24 * total →
      runSteps (n + 1) s = .next { s with inst := { s.inst with
        phase := .latch, ledptr := BitVec.ofNat 32 (total - 1), bitptr := 0, wire := s.inst.wire ++ bitSyms } })

/-- R176, R177: a COMMIT sends exactly the `24 * N` bits of the whole buffer, in physical index order, then one Latch,
and retires after `24 * N + 1` serializer steps (R187; the empty schedule is the model's own, notes/assumptions/3.md). -/
def Obligations.CommitSendsTheWholeFrame : Prop :=
  ∀ s m, InSpec s → s.schedule = [] → Ready s.inst (encode .commit) → s.inst.bind.bound = true →
    s.inst.fb = some m →
    let total := s.inst.matrix.width * s.inst.matrix.height
    runSteps (1 + (24 * total + 1)) s = .next { s with inst := { s.inst with
      pc := s.inst.pc + 1, status := 0x00, phase := .idle, ledptr := BitVec.ofNat 32 (total - 1), bitptr := 0,
      wire := s.inst.wire ++
        ((List.range total).flatMap fun k =>
          (List.range 24).map fun j => WireSym.bit (wireBit s.inst.matrix.wireOrder (Memory.read m k) j)) ++ [.latch] } }

/-- R58, R178, R246: while a commit is under way no step but a reset changes the buffer, the binding or FAULT, and the
commit goes on: SHIFT ends only in LATCH, and pc moves only when LATCH ends. -/
def Obligations.CommitIsNotDisturbed : Prop :=
  ∀ s t, NoReset s → s.inst.phase ≠ .idle → step s = .next t →
    t.inst.fb = s.inst.fb ∧ t.inst.bind = s.inst.bind ∧ t.inst.fault = s.inst.fault ∧
    (s.inst.phase = .shift → t.inst.phase ≠ .idle) ∧
    (t.inst.phase ≠ .idle → t.inst.pc = s.inst.pc ∧ t.inst.status = s.inst.status)

/-- The frame of the serializer: only PHASE, LEDPTR, BITPTR, the wire log, and in the latch step STATUS and pc. -/
def Obligations.SerializerFrame : Prop :=
  ∀ s t, serializerStep s = .next t →
    t = { s with inst := { s.inst with
            phase := t.inst.phase, ledptr := t.inst.ledptr, bitptr := t.inst.bitptr, wire := t.inst.wire,
            status := t.inst.status, pc := t.inst.pc } } ∧
    (s.inst.phase ≠ .latch → t.inst.status = s.inst.status ∧ t.inst.pc = s.inst.pc)

/-! ## The waveform and the LEDs -/

/-- R180: one bit period, and the default times. -/
def Obligations.BitPeriodHasItsTwoParts : Prop :=
  (∀ (c : Cfg) (n : Nat) (b : Bool), c.wf = true →
    ∃ high low, waveform c n (.bit b) = [⟨.high, high⟩, ⟨.low, low⟩] ∧
      high = (if b then c.t1h else c.t0h) ∧ 0 < high ∧ 0 < low ∧ high + low = 1250) ∧
  (∀ c : Cfg, c.wf = true → c.t0h < c.t1h) ∧
  highTime Cfg.default false = 400 ∧ highTime Cfg.default true = 800 ∧
  lowTime Cfg.default false = 850 ∧ lowTime Cfg.default true = 450

/-- R187, R252: a frame lasts `24 * N * T_BIT` and a latch gap of at least T_RESET (how much more is the free value of
notes/assumptions/9.md; that it depends on the position alone is the model's choice, and the statement holds for every value). -/
def Obligations.FrameLastsAtLeast : Prop :=
  ∀ (c : Cfg) (m : Memory) (n : Nat), c.wf = true →
    24 * (c.width * c.height) * 1250 + c.tReset ≤ duration (lineTrace c n (frame c.toMatrixCfg m)) ∧
    ∃ gap, c.tReset ≤ gap ∧ duration (lineTrace c n (frame c.toMatrixCfg m)) = 24 * (c.width * c.height) * 1250 + gap

/-- R182: among the bits of a frame the line is never low for longer than T0L. -/
def Obligations.NoLongLowInsideAFrame : Prop :=
  ∀ (c : Cfg) (l : List Bool) (n : Nat), c.wf = true →
    (∀ seg ∈ lineTrace c n (l.map WireSym.bit), seg.level = .low → seg.ns ≤ 1250 - c.t0h) ∧
    duration (lineTrace c n (l.map WireSym.bit)) = l.length * 1250

/-- R188: after a frame's Latch LED `i` of a chain with the block's channel order shows entry `i` of the buffer. How the
chain works is R188's general knowledge, as the spec marks it (notes/assumptions/13.md). -/
def Obligations.LedsShowTheCommittedFrame : Prop :=
  ∀ (c : MatrixCfg) (m : Memory) (wire : List WireSym) (i : Nat), c.wf = true → (chainView wire).pending = [] →
    i < c.width * c.height →
    ledShows c.wireOrder (wire ++ frame c m) i = some (Memory.read m i) ∧
    (chainView (wire ++ frame c m)).pending = []

/-! ## RENDER and SHOWDIGIT -/

/-- R161, R164: the expansions. The cells of a digit are listed once each, by row and then by column. -/
def Obligations.GlyphExpansionListsTheOnCells : Prop :=
  ∀ (c : Cfg) (digit : Nat) (color : Color), c.wf = true →
    (9 < digit → expandRender c digit color = .reported .errDigit ∧
      expandShowDigit c digit color = .reported .errDigit) ∧
    (digit ≤ 9 → ∃ cells : List Cell,
      expandRender c digit color = .commands (cells.map fun p => .setxy p.x p.y color) ∧
      expandShowDigit c digit color =
        .commands ([Instr.clear] ++ (cells.map fun p => .setxy p.x p.y color) ++ [.commit]) ∧
      (∀ p, p ∈ cells ↔ p ∈ glyphCells c.toPlatformCfg digit) ∧
      cells.Pairwise fun p q => p.y < q.y ∨ (p.y = q.y ∧ p.x < q.x))

/-- R163, R161: RENDER gives every on cell the color and leaves every other entry; each of its commands, one after the
other, retires with OK. -/
def Obligations.RenderWritesExactlyTheOnCells : Prop :=
  ∀ s m digit color, (cfgOf s.platform s.inst).wf = true → s.inst.bind.bound = true → s.inst.fb = some m → Memory.wf m = true →
    digit ≤ 9 →
    ∃ l t m', expandRender (cfgOf s.platform s.inst) digit color = .commands l ∧ execAll l s = .next t ∧ t.inst.fb = some m' ∧
      (∀ p ∈ glyphCells s.platform digit, Memory.read m' (mapIndex s.inst.matrix p.x p.y) = color) ∧
      (∀ i, (∀ p ∈ glyphCells s.platform digit, mapIndex s.inst.matrix p.x p.y ≠ i) →
        Memory.read m' i = Memory.read m i) ∧
      (∀ before i after, l = before ++ i :: after → ∃ u v, execAll before s = .next u ∧ exec i u = .next v ∧
        v.inst.status = 0x00 ∧ v.inst.pc = u.inst.pc + 1) ∧
      t.inst.pc = s.inst.pc + l.length ∧ t.inst.fault = s.inst.fault ∧ t.inst.wire = s.inst.wire

/-! ## The observation port -/

/-- R24: the layout of BIND. -/
def Obligations.BindRegisterLayout : Prop :=
  ∀ b : BindReg,
    b.word.extractLsb' 0 1 = BitVec.ofBool b.bound ∧
    b.word.extractLsb' 1 1 = (match b.unit with | .primary => 0 | .secondary => 1) ∧
    b.word.extractLsb' 2 6 = 0 ∧ b.word.extractLsb' 8 8 = b.slot ∧ b.word.extractLsb' 16 8 = b.pin ∧
    b.word.extractLsb' 24 8 = 0

/-- R29, R225: GEOM is an instance's own W and H in every state, no step changes any instance's, and the reserved registers
read 0. -/
def Obligations.GeomIsHardwired : Prop :=
  (∀ i : Inst, i.matrix.wf = true →
    ((readRegister i 0x6).extractLsb' 0 16).toNat = i.matrix.width ∧
    ((readRegister i 0x6).extractLsb' 16 16).toNat = i.matrix.height) ∧
  (∀ s t : State, step s = .next t →
    (allInsts t).map (fun i => readRegister i 0x6) = (allInsts s).map fun i => readRegister i 0x6) ∧
  (∀ (i : Inst) (r : BitVec 4), 7 ≤ r.toNat → readRegister i r = 0)

/-! ## The whole machine -/

/-- R8, R20, R160: no step changes the platform's configuration, the one GLYPH among it, and none changes an instance's
name, its part of the configuration or its host's program. That these stand in State, and that instances are neither
made nor unmade, is the model's choice (notes/assumptions/1.md, 2.md and 4.md). -/
def Obligations.ConfigurationAndProgramsAreFixed : Prop :=
  ∀ s t, step s = .next t →
    t.platform = s.platform ∧
    (allInsts t).map (fun i => (i.id, i.matrix, i.prog)) = (allInsts s).map (fun i => (i.id, i.matrix, i.prog))

/-- R24: once BOUND = 1, no step changes BIND until reset; without a binding BIND of the focused instance changes only in a
step of its host that executes an INIT, and a peer's only in a step of that peer's host. -/
def Obligations.BindingStaysUntilReset : Prop :=
  ∀ s t, NoReset s → step s = .next t →
    (s.inst.bind.bound = true → t.inst.bind = s.inst.bind) ∧
    (∀ p ∈ s.peers, p.bind.bound = true → ∃ q ∈ t.peers, q.id = p.id ∧ q.bind = p.bind) ∧
    (t.inst.bind ≠ s.inst.bind → nextEvent s = .own .host ∧ s.inst.fault = 0 ∧ s.inst.phase = .idle ∧
      ∃ w pin, fetch s.inst = some w ∧ decode w = .command (.init pin)) ∧
    (∀ k p q, s.peers[k]? = some p → t.peers[k]? = some q → q.bind ≠ p.bind → nextEvent s = .peer k .host)

/-- R217: a faulted instance takes no step, so FAULT holds the first fault raised until reset. -/
def Obligations.FaultedInstanceIsFrozen : Prop :=
  ∀ s t, NoReset s → step s = .next t →
    (s.inst.fault ≠ 0 → t.inst = s.inst) ∧
    (∀ (k : Nat) (p : Inst), s.peers[k]? = some p → p.fault ≠ 0 → t.peers[k]? = some p)

/-- R22, R25: pc and STATUS change only when a command retires, by 1 and to a result of R211. -/
def Obligations.PcMovesOnlyWhenACommandRetires : Prop :=
  ∀ s t, NoReset s → step s = .next t →
    (t.inst.pc = s.inst.pc ∧ t.inst.status = s.inst.status) ∨
    (t.inst.pc = s.inst.pc + 1 ∧ (t.inst.status = 0x00 ∨ t.inst.status = 0x01 ∨ t.inst.status = 0x02) ∧
      t.inst.fault = s.inst.fault)

/-- R33: the wire log only grows, by at most one symbol a step, and only while the serializer is at work. -/
def Obligations.WireLogOnlyGrows : Prop :=
  ∀ s t, NoReset s → step s = .next t →
    t.inst.wire = s.inst.wire ∨
    (s.inst.phase ≠ .idle ∧ ∃ sym, t.inst.wire = s.inst.wire ++ [sym] ∧ (sym = .latch ↔ s.inst.phase = .latch))

/-- R226: an environment step changes at most one claim-table entry, from FREE to held by the environment or back, or its
answer for PROG_FITS (notes/assumptions/6.md), and nothing else: not the loaded programs, not the other answer, no entry an
instance holds, nothing of any instance. That a claimer has a number, and that the environment releases any claimer's slot,
is the model's choice (notes/assumptions/14.md). -/
def Obligations.EnvironmentKeepsToItsOwnSlots : Prop :=
  ∀ s es, InSpec s →
    (∀ u slot claimer, s.schedule = .envClaim u slot claimer :: es →
      ∃ t, step s = .next t ∧ t.inst = s.inst ∧ t.peers = s.peers ∧ t.platform = s.platform ∧ t.schedule = es ∧
        (claimOf s u slot = some .free → claimOf t u slot = some (.held (.env claimer))) ∧
        (∀ v n, (v ≠ u ∨ n ≠ slot ∨ claimOf s u slot ≠ some .free) →
          (unitOf t v).slots[n]? = (unitOf s v).slots[n]?) ∧
        ∀ v, (unitOf t v).programLoaded = (unitOf s v).programLoaded ∧ (unitOf t v).progFits = (unitOf s v).progFits) ∧
    (∀ u slot, s.schedule = .envRelease u slot :: es →
      ∃ t, step s = .next t ∧ t.inst = s.inst ∧ t.peers = s.peers ∧ t.platform = s.platform ∧ t.schedule = es ∧
        ((∃ c, claimOf s u slot = some (.held (.env c))) → claimOf t u slot = some .free) ∧
        (∀ v n, (v ≠ u ∨ n ≠ slot ∨ ∀ c, claimOf s u slot ≠ some (.held (.env c))) →
          (unitOf t v).slots[n]? = (unitOf s v).slots[n]?) ∧
        ∀ v, (unitOf t v).programLoaded = (unitOf s v).programLoaded ∧ (unitOf t v).progFits = (unitOf s v).progFits) ∧
    (∀ u fits, s.schedule = .envProgFits u fits :: es →
      ∃ t, step s = .next t ∧ t.inst = s.inst ∧ t.peers = s.peers ∧ t.platform = s.platform ∧ t.schedule = es ∧
        (unitOf t u).progFits = fits ∧ (∀ v, v ≠ u → (unitOf t v).progFits = (unitOf s v).progFits) ∧
        ∀ v, (unitOf t v).slots = (unitOf s v).slots ∧ (unitOf t v).programLoaded = (unitOf s v).programLoaded)

/-- R225: instances interact only through the claim table. A step of an agent is the same whatever the other instances
are, and leaves them as they are. -/
def Obligations.OtherInstancesAreNotSeenNorTouched : Prop :=
  ∀ a s t ps, runActor a s = .next t →
    t.peers = s.peers ∧ runActor a { s with peers := ps } = .next { t with peers := ps }

/-! ## Invariants -/

/-- The three invariants of Safety.lean hold at reset, and the reset launch is inside the spec. This rests on the defaults
of R8, on the model's empty GLYPH (notes/assumptions/1.md) and on its one instance at reset (notes/assumptions/4.md). -/
def Obligations.ResetMeetsTheInvariants : Prop :=
  (∀ i ∈ allInsts State.reset, FrameBufferOk i) ∧
  (∀ i ∈ allInsts State.reset, RegistersOk State.reset.platform i) ∧
  ClaimsOk State.reset ∧ InSpec State.reset

/-- Every step keeps every instance's frame buffer in canonical form (indexes rising, no entry ZERO: the model's own form,
notes/assumptions/10.md) and inside its matrix (R30). -/
def Obligations.StepKeepsFrameBufferCanonical : Prop :=
  ∀ s t, (∀ i ∈ allInsts s, FrameBufferOk i) → step s = .next t → ∀ i ∈ allInsts t, FrameBufferOk i

/-- Every step keeps the registers of every instance legal (R22 to R28, R34, R211, R213). That `dout`, the level between two
steps, is low in SHIFT too is the model's reading of R34 (notes/assumptions/9.md); in IDLE and LATCH R34 says it. -/
def Obligations.StepKeepsRegistersLegal : Prop :=
  ∀ s t, (∀ i ∈ allInsts s, RegistersOk s.platform i) → step s = .next t → ∀ i ∈ allInsts t, RegistersOk t.platform i

/-- Every step keeps the claim table and the bindings in agreement (R35, R60, R61; the loaded program and the slot's
configuration are the model's reading of R105, notes/assumptions/8.md). -/
def Obligations.StepKeepsClaimsConsistent : Prop :=
  ∀ s t, ClaimsOk s → step s = .next t → ClaimsOk t

/-- R61: a (unit, slot) pair is held by one instance only, so at most `2 * SLOTS` instances are bound (R225). -/
def Obligations.SlotsAreHeldExclusively : Prop :=
  ∀ s, ClaimsOk s →
    (∀ i ∈ allInsts s, ∀ j ∈ allInsts s, i.bind.bound = true → j.bind.bound = true →
      i.bind.unit = j.bind.unit → i.bind.slot = j.bind.slot → i = j) ∧
    (boundInsts s).length ≤ 2 * s.platform.slots

/-- No run that meets the invariants stops: every step of a launch inside the spec answers a next state. The stops it rules
out are the model's own (notes/assumptions/7.md and 10.md). -/
def Obligations.StepNeverStopsInsideTheSpec : Prop :=
  ∀ s, InSpec s → (∀ i ∈ allInsts s, RegistersOk s.platform i) → ∃ t, step s = .next t

/-- R243, R244: on a well-formed host program no instance raises any fault but INIT's own F_NO_SLOT and F_PIN. -/
def Obligations.OrderlyProgramsOnlyFaultAtInit : Prop :=
  ∀ s t, (∀ i ∈ allInsts s, Orderly i) → step s = .next t → ∀ i ∈ allInsts t, Orderly i

/-! ## Fairness and the observation port -/

/-- R187, 92_eei_decisions.md D32: in every endless run in which the serializers are weakly fair and no reset comes, whatever
else the agents and the environment do, a commit under way on an unfaulted instance retires: later PHASE is IDLE, pc is one
further and STATUS is OK. Instances keep their numbers and runs are event by event: the model's form (notes/assumptions/3.md,
4.md and 15.md). -/
def Obligations.EveryCommitRetiresUnderWeakFairness : Prop :=
  ∀ (r : Nat → State) (ev : Nat → Event), IsRun r ev → WeaklyFair r ev → (∀ n, ev n ≠ .reset) →
    ∀ (k n : Nat) (i : Inst), (allInsts (r n))[k]? = some i → i.fault = 0 → i.phase ≠ .idle →
      ∃ (m : Nat) (j : Inst), n < m ∧ (allInsts (r m))[k]? = some j ∧ j.phase = .idle ∧ j.pc = i.pc + 1 ∧ j.status = 0x00

/-- R24 to R28, R227: what the observation port reads, register by register, of any instance; the frame buffer once BOUND = 1
and not before; the wire log; the claim table. Zeros above a register narrower than 32 bits are the model's reading
(notes/assumptions/11.md). -/
def Obligations.PortReadsTheState : Prop :=
  ∀ i : Inst,
    readRegister i 0x0 = i.bind.word ∧
    (readRegister i 0x1).toNat = i.status.toNat ∧ (readRegister i 0x2).toNat = i.fault.toNat ∧
    (readRegister i 0x3).toNat = (match i.phase with | .idle => 0 | .shift => 1 | .latch => 2) ∧
    readRegister i 0x4 = i.ledptr ∧ (readRegister i 0x5).toNat = i.bitptr.toNat ∧
    (∀ m index, i.bind.bound = true → i.fb = some m → index < i.matrix.width * i.matrix.height →
      observeFb i index = some (Memory.read m index)) ∧
    (∀ index, i.bind.bound = false → observeFb i index = none) ∧
    observeWire i = i.wire ∧
    ∀ s u slot, observeClaim s u slot = ((unitOf s u).slots[slot]?).map (·.claim)
end

