-- ==== Sys2Proof/Laws/Decode.lean ====
section
/-! SUPPORT. Fields and words as numbers: what later proofs about the decoder and the encoder need. -/

namespace Sys2Proof

/-- A field of a word, as a number (R10, R77). -/
theorem bits_toNat (w : Word) (lo len : Nat) : (bits w lo len).toNat = w.toNat / 2 ^ lo % 2 ^ len := by
  simp [bits, BitVec.extractLsb'_toNat, Nat.shiftRight_eq_div_pow]

/-- The opcode field of a word, as a number (R71). -/
theorem opField_toNat (w : Word) : (opField w).toNat = w.toNat / 2 ^ 56 := by
  have := w.isLt
  rw [opField, bits_toNat]
  omega

/-- Concatenation as arithmetic (R10). -/
theorem append_toNat {a b : Nat} (x : BitVec a) (y : BitVec b) : (x ++ y).toNat = x.toNat * 2 ^ b + y.toNat := by
  rw [BitVec.toNat_append, ← Nat.shiftLeft_add_eq_or_of_lt y.isLt, Nat.shiftLeft_eq]

/-- The color field of a word, channel by channel (R76). -/
theorem colorBits_toNat (c : Color) :
    (colorBits c).toNat = c.r.toNat * 2 ^ 16 + c.g.toNat * 2 ^ 8 + c.b.toNat := by
  rw [colorBits, append_toNat, append_toNat]
  omega

/-- The word of a command, as opcode and operands (R71). -/
theorem encode_toNat (i : Instr) : (encode i).toNat = (opcode i).toNat * 2 ^ 56 + (operandBits i).toNat := by
  rw [encode, append_toNat]

/-! The opcodes as numbers (R78). -/

@[simp] theorem opcode_init_toNat (pin : Nat) : (opcode (.init pin)).toNat = 1 := rfl
@[simp] theorem opcode_clear_toNat : (opcode .clear).toNat = 2 := rfl
@[simp] theorem opcode_set_toNat (index : Nat) (c : Color) : (opcode (.set index c)).toNat = 3 := rfl
@[simp] theorem opcode_setxy_toNat (x y : Nat) (c : Color) : (opcode (.setxy x y c)).toNat = 4 := rfl
@[simp] theorem opcode_commit_toNat : (opcode .commit).toNat = 5 := rfl

/-! The operand fields as numbers (R72 to R75). -/

theorem operandBits_init_toNat (pin : Nat) : (operandBits (.init pin)).toNat = pin % 2 ^ 8 := by
  rw [operandBits, append_toNat]; simp

theorem operandBits_set_toNat (index : Nat) (c : Color) :
    (operandBits (.set index c)).toNat = index % 2 ^ 32 * 2 ^ 24 + (colorBits c).toNat := by
  rw [operandBits, append_toNat, BitVec.toNat_ofNat]

theorem operandBits_setxy_toNat (x y : Nat) (c : Color) :
    (operandBits (.setxy x y c)).toNat = (x % 2 ^ 16 * 2 ^ 16 + y % 2 ^ 16) * 2 ^ 24 + (colorBits c).toNat := by
  rw [operandBits, append_toNat, append_toNat, BitVec.toNat_ofNat, BitVec.toNat_ofNat]

/-- A Color is its three channels. -/
theorem color_ext {c d : Color} (hr : c.r = d.r) (hg : c.g = d.g) (hb : c.b = d.b) : c = d := by
  cases c; cases d; simp_all

end Sys2Proof
end

