-- ==== Sys2Proof/Laws/Memory.lean ====
section
/-! SUPPORT. The laws of the frame buffer's memory: read after write, and that every operation keeps the canonical form. -/

namespace Sys2Proof.Machine

@[simp] theorem Memory.read_nil (i : Nat) : Memory.read [] i = Color.zero := rfl

theorem Memory.read_of_above {m : Memory} {lo i : Nat} (h : Memory.above lo m = true) (hi : i ≤ lo) :
    Memory.read m i = Color.zero := by
  induction m with
  | nil => rfl
  | cons cell m ih =>
    obtain ⟨hc, hm⟩ : lo < cell.1 ∧ Memory.above lo m = true := by simpa [Memory.above] using h
    rw [Memory.read, if_neg (by omega)]
    exact ih hm

theorem Memory.read_cons_same {m : Memory} {i : Nat} {c : Color} (h : Memory.above i m = true) :
    Memory.read (Memory.cons i c m) i = c := by
  unfold Memory.cons
  split
  · next hc => rw [hc]; exact Memory.read_of_above h (Nat.le_refl i)
  · simp [Memory.read]

theorem Memory.read_cons_other {m : Memory} {i a : Nat} {c : Color} (h : a ≠ i) :
    Memory.read (Memory.cons i c m) a = Memory.read m a := by
  unfold Memory.cons
  split
  · rfl
  · simp [Memory.read, Ne.symm h]

theorem Memory.above_mono {m : Memory} {lo lo' : Nat} (h : Memory.above lo m = true) (hle : lo' ≤ lo) :
    Memory.above lo' m = true := by
  simp only [Memory.above, List.all_eq_true, decide_eq_true_eq] at *
  exact fun x hx => Nat.lt_of_le_of_lt hle (h x hx)

theorem Memory.wf_cons_iff {i : Nat} {c : Color} {m : Memory} :
    Memory.wf ((i, c) :: m) = true ↔ c ≠ Color.zero ∧ Memory.above i m = true ∧ Memory.wf m = true := by
  simp [Memory.wf, and_assoc]

/-- A read after a write to the same entry gives the color written. -/
theorem Memory.read_write_same {m : Memory} (h : Memory.wf m = true) (i : Nat) (c : Color) :
    Memory.read (Memory.write m i c) i = c := by
  induction m with
  | nil => exact Memory.read_cons_same rfl
  | cons cell m ih =>
    obtain ⟨j, d⟩ := cell
    obtain ⟨-, ha, hm⟩ := Memory.wf_cons_iff.1 h
    rw [Memory.write]
    split
    · next hlt =>
      refine Memory.read_cons_same ?_
      have := Memory.above_mono ha (Nat.le_of_lt hlt)
      simpa [Memory.above, hlt] using this
    · split
      · next heq => subst heq; exact Memory.read_cons_same ha
      · next hne => rw [Memory.read, if_neg (Ne.symm hne)]; exact ih hm

/-- A write leaves every other entry alone. -/
theorem Memory.read_write_other {m : Memory} (h : Memory.wf m = true) {i a : Nat} (c : Color) (hne : a ≠ i) :
    Memory.read (Memory.write m i c) a = Memory.read m a := by
  induction m with
  | nil => exact Memory.read_cons_other hne
  | cons cell m ih =>
    obtain ⟨j, d⟩ := cell
    obtain ⟨-, -, hm⟩ := Memory.wf_cons_iff.1 h
    rw [Memory.write]
    split
    · exact Memory.read_cons_other hne
    · split
      · next heq => rw [Memory.read_cons_other hne, Memory.read, if_neg (by omega)]
      · rw [Memory.read, Memory.read, ih hm]

theorem Memory.above_cons {m : Memory} {lo i : Nat} {c : Color} (h : Memory.above lo m = true) (hi : lo < i) :
    Memory.above lo (Memory.cons i c m) = true := by
  unfold Memory.cons
  split
  · exact h
  · simpa [Memory.above, hi] using h

theorem Memory.above_write {m : Memory} {lo i : Nat} {c : Color} (h : Memory.above lo m = true) (hi : lo < i) :
    Memory.above lo (Memory.write m i c) = true := by
  induction m with
  | nil => exact Memory.above_cons rfl hi
  | cons cell m ih =>
    obtain ⟨j, d⟩ := cell
    obtain ⟨hj, hm⟩ : lo < j ∧ Memory.above lo m = true := by simpa [Memory.above] using h
    rw [Memory.write]
    split
    · exact Memory.above_cons h hi
    · split
      · exact Memory.above_cons hm hi
      · have := ih hm
        simp only [Memory.above, List.all_cons, Bool.and_eq_true, decide_eq_true_eq] at *
        exact ⟨hj, this⟩

theorem Memory.cons_wf {m : Memory} {i : Nat} {c : Color} (h : Memory.wf m = true) (ha : Memory.above i m = true) :
    Memory.wf (Memory.cons i c m) = true := by
  unfold Memory.cons
  split
  · exact h
  · next hc => exact Memory.wf_cons_iff.2 ⟨hc, ha, h⟩

/-- A write keeps the canonical form. -/
theorem Memory.write_wf {m : Memory} (h : Memory.wf m = true) (i : Nat) (c : Color) :
    Memory.wf (Memory.write m i c) = true := by
  induction m with
  | nil => exact Memory.cons_wf rfl rfl
  | cons cell m ih =>
    obtain ⟨j, d⟩ := cell
    obtain ⟨hd, ha, hm⟩ := Memory.wf_cons_iff.1 h
    rw [Memory.write]
    split
    · next hlt =>
      refine Memory.cons_wf h ?_
      have := Memory.above_mono ha (Nat.le_of_lt hlt)
      simpa [Memory.above, hlt] using this
    · split
      · next heq => subst heq; exact Memory.cons_wf hm ha
      · exact Memory.wf_cons_iff.2 ⟨hd, Memory.above_write ha (by omega), ih hm⟩

/-- A write inside the matrix lists entries of the matrix only. -/
theorem Memory.write_below {m : Memory} {n i : Nat} (h : Memory.below n m = true) (hi : i < n) (c : Color) :
    Memory.below n (Memory.write m i c) = true := by
  have hcons : ∀ {l : Memory}, Memory.below n l = true → Memory.below n (Memory.cons i c l) = true := by
    intro l hl
    unfold Memory.cons
    split
    · exact hl
    · simpa [Memory.below, hi] using hl
  induction m with
  | nil => exact hcons rfl
  | cons cell m ih =>
    obtain ⟨j, d⟩ := cell
    obtain ⟨hj, hm⟩ : j < n ∧ Memory.below n m = true := by simpa [Memory.below] using h
    rw [Memory.write]
    split
    · exact hcons h
    · split
      · exact hcons hm
      · have := ih hm
        simp only [Memory.below, List.all_cons, Bool.and_eq_true, decide_eq_true_eq] at *
        exact ⟨hj, this⟩

/-- The buffer INIT creates and CLEAR leaves is in canonical form. -/
theorem Memory.nil_wf : Memory.wf [] = true := rfl

/-- The reset state has no buffer, so its memory is trivially in canonical form. -/
theorem reset_fb_wf : ∀ m, State.reset.inst.fb = some m → Memory.wf m = true := by
  intro m h
  cases h

end Sys2Proof.Machine
end

