-- ==== Sys2Proof/Laws/State.lean ====
section
/-! SUPPORT. One lemma per field of State per update, so that no later proof unfolds a record update. For the updates of the
focused instance the lemma about `inst` gives all of its fields at once. -/

namespace Sys2Proof.Machine

/-! ## setFb -/

@[simp] theorem setFb_inst (m : Memory) (s : State) :
    (setFb m s).inst = { s.inst with fb := some m } := rfl
@[simp] theorem setFb_platform (m : Memory) (s : State) : (setFb m s).platform = s.platform := rfl
@[simp] theorem setFb_primary (m : Memory) (s : State) : (setFb m s).primary = s.primary := rfl
@[simp] theorem setFb_secondary (m : Memory) (s : State) : (setFb m s).secondary = s.secondary := rfl
@[simp] theorem setFb_peers (m : Memory) (s : State) : (setFb m s).peers = s.peers := rfl
@[simp] theorem setFb_schedule (m : Memory) (s : State) : (setFb m s).schedule = s.schedule := rfl
@[simp] theorem setFb_draws (m : Memory) (s : State) : (setFb m s).draws = s.draws := rfl

/-! ## retire -/

@[simp] theorem retire_inst (r : ResultCode) (s : State) :
    (retire r s).inst = { s.inst with status := r.code, pc := s.inst.pc + 1 } := rfl
@[simp] theorem retire_platform (r : ResultCode) (s : State) : (retire r s).platform = s.platform := rfl
@[simp] theorem retire_primary (r : ResultCode) (s : State) : (retire r s).primary = s.primary := rfl
@[simp] theorem retire_secondary (r : ResultCode) (s : State) : (retire r s).secondary = s.secondary := rfl
@[simp] theorem retire_peers (r : ResultCode) (s : State) : (retire r s).peers = s.peers := rfl
@[simp] theorem retire_schedule (r : ResultCode) (s : State) : (retire r s).schedule = s.schedule := rfl
@[simp] theorem retire_draws (r : ResultCode) (s : State) : (retire r s).draws = s.draws := rfl

/-! ## raiseFault -/

@[simp] theorem raiseFault_inst (f : FaultCode) (s : State) :
    (raiseFault f s).inst = { s.inst with fault := f.code } := rfl
@[simp] theorem raiseFault_platform (f : FaultCode) (s : State) : (raiseFault f s).platform = s.platform := rfl
@[simp] theorem raiseFault_primary (f : FaultCode) (s : State) : (raiseFault f s).primary = s.primary := rfl
@[simp] theorem raiseFault_secondary (f : FaultCode) (s : State) : (raiseFault f s).secondary = s.secondary := rfl
@[simp] theorem raiseFault_peers (f : FaultCode) (s : State) : (raiseFault f s).peers = s.peers := rfl
@[simp] theorem raiseFault_schedule (f : FaultCode) (s : State) : (raiseFault f s).schedule = s.schedule := rfl
@[simp] theorem raiseFault_draws (f : FaultCode) (s : State) : (raiseFault f s).draws = s.draws := rfl

/-! ## setSerializer -/

@[simp] theorem setSerializer_inst (p : Phase) (k : BitVec 32) (j : BitVec 5) (s : State) :
    (setSerializer p k j s).inst = { s.inst with phase := p, ledptr := k, bitptr := j } := rfl
@[simp] theorem setSerializer_platform (p : Phase) (k : BitVec 32) (j : BitVec 5) (s : State) : (setSerializer p k j s).platform = s.platform := rfl
@[simp] theorem setSerializer_primary (p : Phase) (k : BitVec 32) (j : BitVec 5) (s : State) : (setSerializer p k j s).primary = s.primary := rfl
@[simp] theorem setSerializer_secondary (p : Phase) (k : BitVec 32) (j : BitVec 5) (s : State) : (setSerializer p k j s).secondary = s.secondary := rfl
@[simp] theorem setSerializer_peers (p : Phase) (k : BitVec 32) (j : BitVec 5) (s : State) : (setSerializer p k j s).peers = s.peers := rfl
@[simp] theorem setSerializer_schedule (p : Phase) (k : BitVec 32) (j : BitVec 5) (s : State) : (setSerializer p k j s).schedule = s.schedule := rfl
@[simp] theorem setSerializer_draws (p : Phase) (k : BitVec 32) (j : BitVec 5) (s : State) : (setSerializer p k j s).draws = s.draws := rfl

/-! ## emit -/

@[simp] theorem emit_inst (w : WireSym) (s : State) :
    (emit w s).inst = { s.inst with wire := s.inst.wire ++ [w] } := rfl
@[simp] theorem emit_platform (w : WireSym) (s : State) : (emit w s).platform = s.platform := rfl
@[simp] theorem emit_primary (w : WireSym) (s : State) : (emit w s).primary = s.primary := rfl
@[simp] theorem emit_secondary (w : WireSym) (s : State) : (emit w s).secondary = s.secondary := rfl
@[simp] theorem emit_peers (w : WireSym) (s : State) : (emit w s).peers = s.peers := rfl
@[simp] theorem emit_schedule (w : WireSym) (s : State) : (emit w s).schedule = s.schedule := rfl
@[simp] theorem emit_draws (w : WireSym) (s : State) : (emit w s).draws = s.draws := rfl

/-! ## setDout -/

@[simp] theorem setDout_inst (v : Level) (s : State) :
    (setDout v s).inst = { s.inst with dout := v } := rfl
@[simp] theorem setDout_platform (v : Level) (s : State) : (setDout v s).platform = s.platform := rfl
@[simp] theorem setDout_primary (v : Level) (s : State) : (setDout v s).primary = s.primary := rfl
@[simp] theorem setDout_secondary (v : Level) (s : State) : (setDout v s).secondary = s.secondary := rfl
@[simp] theorem setDout_peers (v : Level) (s : State) : (setDout v s).peers = s.peers := rfl
@[simp] theorem setDout_schedule (v : Level) (s : State) : (setDout v s).schedule = s.schedule := rfl
@[simp] theorem setDout_draws (v : Level) (s : State) : (setDout v s).draws = s.draws := rfl

/-! ## setBind -/

@[simp] theorem setBind_inst (b : BindReg) (s : State) :
    (setBind b s).inst = { s.inst with bind := b } := rfl
@[simp] theorem setBind_platform (b : BindReg) (s : State) : (setBind b s).platform = s.platform := rfl
@[simp] theorem setBind_primary (b : BindReg) (s : State) : (setBind b s).primary = s.primary := rfl
@[simp] theorem setBind_secondary (b : BindReg) (s : State) : (setBind b s).secondary = s.secondary := rfl
@[simp] theorem setBind_peers (b : BindReg) (s : State) : (setBind b s).peers = s.peers := rfl
@[simp] theorem setBind_schedule (b : BindReg) (s : State) : (setBind b s).schedule = s.schedule := rfl
@[simp] theorem setBind_draws (b : BindReg) (s : State) : (setBind b s).draws = s.draws := rfl

/-! ## countDraw -/

@[simp] theorem countDraw_draws (s : State) : (countDraw s).draws = s.draws + 1 := rfl
@[simp] theorem countDraw_platform (s : State) : (countDraw s).platform = s.platform := rfl
@[simp] theorem countDraw_primary (s : State) : (countDraw s).primary = s.primary := rfl
@[simp] theorem countDraw_secondary (s : State) : (countDraw s).secondary = s.secondary := rfl
@[simp] theorem countDraw_inst (s : State) : (countDraw s).inst = s.inst := rfl
@[simp] theorem countDraw_peers (s : State) : (countDraw s).peers = s.peers := rfl
@[simp] theorem countDraw_schedule (s : State) : (countDraw s).schedule = s.schedule := rfl

/-! ## setUnit, and the claim-table updates over it -/

@[simp] theorem setUnit_platform (u : UnitId) (v : SigUnit) (s : State) : (setUnit u v s).platform = s.platform := by cases u <;> rfl
@[simp] theorem setUnit_inst (u : UnitId) (v : SigUnit) (s : State) : (setUnit u v s).inst = s.inst := by cases u <;> rfl
@[simp] theorem setUnit_peers (u : UnitId) (v : SigUnit) (s : State) : (setUnit u v s).peers = s.peers := by cases u <;> rfl
@[simp] theorem setUnit_schedule (u : UnitId) (v : SigUnit) (s : State) : (setUnit u v s).schedule = s.schedule := by cases u <;> rfl
@[simp] theorem setUnit_draws (u : UnitId) (v : SigUnit) (s : State) : (setUnit u v s).draws = s.draws := by cases u <;> rfl

@[simp] theorem unitOf_setUnit_same (u : UnitId) (v : SigUnit) (s : State) : unitOf (setUnit u v s) u = v := by
  cases u <;> rfl

theorem unitOf_setUnit_other {u w : UnitId} (h : w ≠ u) (v : SigUnit) (s : State) :
    unitOf (setUnit u v s) w = unitOf s w := by
  cases u <;> cases w <;> first | rfl | exact absurd rfl h

@[simp] theorem claimSlot_platform (u : UnitId) (n : Nat) (p : Byte) (s : State) : (claimSlot u n p s).platform = s.platform := setUnit_platform _ _ _
@[simp] theorem claimSlot_inst (u : UnitId) (n : Nat) (p : Byte) (s : State) : (claimSlot u n p s).inst = s.inst := setUnit_inst _ _ _
@[simp] theorem claimSlot_peers (u : UnitId) (n : Nat) (p : Byte) (s : State) : (claimSlot u n p s).peers = s.peers := setUnit_peers _ _ _
@[simp] theorem claimSlot_schedule (u : UnitId) (n : Nat) (p : Byte) (s : State) : (claimSlot u n p s).schedule = s.schedule := setUnit_schedule _ _ _
@[simp] theorem claimSlot_draws (u : UnitId) (n : Nat) (p : Byte) (s : State) : (claimSlot u n p s).draws = s.draws := setUnit_draws _ _ _

@[simp] theorem loadProgram_platform (u : UnitId) (s : State) : (loadProgram u s).platform = s.platform := setUnit_platform _ _ _
@[simp] theorem loadProgram_inst (u : UnitId) (s : State) : (loadProgram u s).inst = s.inst := setUnit_inst _ _ _
@[simp] theorem loadProgram_peers (u : UnitId) (s : State) : (loadProgram u s).peers = s.peers := setUnit_peers _ _ _
@[simp] theorem loadProgram_schedule (u : UnitId) (s : State) : (loadProgram u s).schedule = s.schedule := setUnit_schedule _ _ _
@[simp] theorem loadProgram_draws (u : UnitId) (s : State) : (loadProgram u s).draws = s.draws := setUnit_draws _ _ _

@[simp] theorem envSetProgFits_platform (u : UnitId) (b : Bool) (s : State) : (envSetProgFits u b s).platform = s.platform := setUnit_platform _ _ _
@[simp] theorem envSetProgFits_inst (u : UnitId) (b : Bool) (s : State) : (envSetProgFits u b s).inst = s.inst := setUnit_inst _ _ _
@[simp] theorem envSetProgFits_peers (u : UnitId) (b : Bool) (s : State) : (envSetProgFits u b s).peers = s.peers := setUnit_peers _ _ _
@[simp] theorem envSetProgFits_schedule (u : UnitId) (b : Bool) (s : State) : (envSetProgFits u b s).schedule = s.schedule := setUnit_schedule _ _ _
@[simp] theorem envSetProgFits_draws (u : UnitId) (b : Bool) (s : State) : (envSetProgFits u b s).draws = s.draws := setUnit_draws _ _ _

@[simp] theorem setSlot_platform (u : UnitId) (n : Nat) (v : Slot) (s : State) : (setSlot u n v s).platform = s.platform := setUnit_platform _ _ _
@[simp] theorem setSlot_inst (u : UnitId) (n : Nat) (v : Slot) (s : State) : (setSlot u n v s).inst = s.inst := setUnit_inst _ _ _
@[simp] theorem setSlot_peers (u : UnitId) (n : Nat) (v : Slot) (s : State) : (setSlot u n v s).peers = s.peers := setUnit_peers _ _ _
@[simp] theorem setSlot_schedule (u : UnitId) (n : Nat) (v : Slot) (s : State) : (setSlot u n v s).schedule = s.schedule := setUnit_schedule _ _ _
@[simp] theorem setSlot_draws (u : UnitId) (n : Nat) (v : Slot) (s : State) : (setSlot u n v s).draws = s.draws := setUnit_draws _ _ _

@[simp] theorem envClaimSlot_platform (u : UnitId) (n c : Nat) (s : State) : (envClaimSlot u n c s).platform = s.platform := by
  unfold envClaimSlot; split <;> simp
@[simp] theorem envClaimSlot_inst (u : UnitId) (n c : Nat) (s : State) : (envClaimSlot u n c s).inst = s.inst := by
  unfold envClaimSlot; split <;> simp
@[simp] theorem envClaimSlot_peers (u : UnitId) (n c : Nat) (s : State) : (envClaimSlot u n c s).peers = s.peers := by
  unfold envClaimSlot; split <;> simp
@[simp] theorem envClaimSlot_schedule (u : UnitId) (n c : Nat) (s : State) : (envClaimSlot u n c s).schedule = s.schedule := by
  unfold envClaimSlot; split <;> simp
@[simp] theorem envClaimSlot_draws (u : UnitId) (n c : Nat) (s : State) : (envClaimSlot u n c s).draws = s.draws := by
  unfold envClaimSlot; split <;> simp

@[simp] theorem envReleaseSlot_platform (u : UnitId) (n : Nat) (s : State) : (envReleaseSlot u n s).platform = s.platform := by
  unfold envReleaseSlot; split <;> simp
@[simp] theorem envReleaseSlot_inst (u : UnitId) (n : Nat) (s : State) : (envReleaseSlot u n s).inst = s.inst := by
  unfold envReleaseSlot; split <;> simp
@[simp] theorem envReleaseSlot_peers (u : UnitId) (n : Nat) (s : State) : (envReleaseSlot u n s).peers = s.peers := by
  unfold envReleaseSlot; split <;> simp
@[simp] theorem envReleaseSlot_schedule (u : UnitId) (n : Nat) (s : State) : (envReleaseSlot u n s).schedule = s.schedule := by
  unfold envReleaseSlot; split <;> simp
@[simp] theorem envReleaseSlot_draws (u : UnitId) (n : Nat) (s : State) : (envReleaseSlot u n s).draws = s.draws := by
  unfold envReleaseSlot; split <;> simp

end Sys2Proof.Machine
end

