-- ==== Sys2Proof/Laws/Ops.lean ====
section
/-! SUPPORT. One spec lemma per shared operation: everything it can do, cited by later proofs instead of unfolding it. -/

namespace Sys2Proof.Machine

@[simp] theorem onNext_next (s : State) (f : State → Out) : onNext (.next s) f = f s := rfl

theorem onNext_eq_next {o : Out} {f : State → Out} {t : State} (h : onNext o f = .next t) :
    ∃ s, o = .next s ∧ f s = .next t := by
  cases o with
  | next s => exact ⟨s, rfl, h⟩
  | fault r => cases h
  | refused r => cases h

theorem whenBound_bound {s : State} (h : s.inst.bind.bound = true) (k : Out) : whenBound s k = k := by
  simp [whenBound, h]

theorem whenBound_unbound {s : State} (h : s.inst.bind.bound = false) (k : Out) :
    whenBound s k = .next (raiseFault .unbound s) := by
  simp [whenBound, h]

/-! ## The frame buffer -/

theorem fbRead_some {s : State} {m : Memory} {i : Nat} (hm : s.inst.fb = some m) (hi : i < ledCount s.inst.matrix) :
    fbRead i s = .ok (Memory.read m i) := by
  simp [fbRead, hm, indexInRange, hi]

theorem fbRead_ok {s : State} {i : Nat} {c : Color} (h : fbRead i s = .ok c) :
    ∃ m, s.inst.fb = some m ∧ i < ledCount s.inst.matrix ∧ c = Memory.read m i := by
  unfold fbRead at h
  split at h
  · cases h
  · next m hm =>
    split at h
    · next hi => exact ⟨m, hm, by simpa [indexInRange] using hi, by cases h; rfl⟩
    · cases h

theorem fbWrite_some {s : State} {m : Memory} {i : Nat} (c : Color) (hm : s.inst.fb = some m)
    (hi : i < ledCount s.inst.matrix) : fbWrite i c s = .next (setFb (Memory.write m i c) s) := by
  simp [fbWrite, hm, indexInRange, hi]

theorem fbWrite_next {s t : State} {i : Nat} {c : Color} (h : fbWrite i c s = .next t) :
    ∃ m, s.inst.fb = some m ∧ i < ledCount s.inst.matrix ∧ t = setFb (Memory.write m i c) s := by
  unfold fbWrite at h
  split at h
  · cases h
  · next m hm =>
    split at h
    · next hi => exact ⟨m, hm, by simpa [indexInRange] using hi, by cases h; rfl⟩
    · cases h

theorem fbClear_some {s : State} {m : Memory} (hm : s.inst.fb = some m) : fbClear s = .next (setFb [] s) := by
  simp [fbClear, hm]

theorem fbClear_next {s t : State} (h : fbClear s = .next t) : ∃ m, s.inst.fb = some m ∧ t = setFb [] s := by
  unfold fbClear at h
  split at h
  · cases h
  · next m hm => exact ⟨m, hm, by cases h; rfl⟩

/-! ## The claim table -/

theorem mem_freeSlots {s : State} {u : UnitId} {n : Nat} :
    n ∈ freeSlots s u ↔ n < s.platform.slots ∧ claimOf s u n = some .free := by
  simp [freeSlots]

theorem usable_iff {s : State} {u : UnitId} :
    usable s u = true ↔
      (∃ n, n < s.platform.slots ∧ claimOf s u n = some .free) ∧ (unitOf s u).progFits = true := by
  have : (freeSlots s u).isEmpty = false ↔ ∃ n, n ∈ freeSlots s u := by
    rw [List.isEmpty_eq_false_iff_exists_mem]
  simp only [usable, Bool.and_eq_true, Bool.not_eq_true', this, mem_freeSlots]

/-- The drawn slot is one of the free slots of a usable unit (R104), whatever the draw. -/
theorem chosenSlot_free {s : State} {u : UnitId} (h : usable s u = true) :
    chosenSlot s u < s.platform.slots ∧ claimOf s u (chosenSlot s u) = some .free := by
  rw [← mem_freeSlots]
  obtain ⟨⟨n, hn⟩, -⟩ := usable_iff.1 h
  have hlen : 0 < (freeSlots s u).length := List.length_pos_of_mem (mem_freeSlots.2 hn)
  have hlt := Nat.mod_lt (Config.freeSlot s.draws) hlen
  unfold chosenSlot
  rw [List.getD_eq_getElem _ _ hlt]
  exact List.getElem_mem hlt

theorem pickUnit_usable {s : State} {u : UnitId} (h : pickUnit s = some u) : usable s u = true := by
  unfold pickUnit at h
  split at h
  · next hp => cases h; exact hp
  · split at h
    · next hs => cases h; exact hs
    · cases h

theorem setSlot_slots_same (u : UnitId) (n : Nat) (v : Slot) (s : State) :
    (unitOf (setSlot u n v s) u).slots = (unitOf s u).slots.set n v := by
  simp [setSlot]

theorem setSlot_unitOf_other {u w : UnitId} (h : w ≠ u) (n : Nat) (v : Slot) (s : State) :
    unitOf (setSlot u n v s) w = unitOf s w := unitOf_setUnit_other h _ _

/-- Replacing one slot leaves every other slot of both units alone. -/
theorem setSlot_getElem_other {u w : UnitId} {n k : Nat} (h : w ≠ u ∨ k ≠ n) (v : Slot) (s : State) :
    (unitOf (setSlot u n v s) w).slots[k]? = (unitOf s w).slots[k]? := by
  by_cases hw : w = u
  · subst hw
    have hk : k ≠ n := by simpa using h
    rw [setSlot_slots_same, List.getElem?_set_ne (Ne.symm hk)]
  · rw [setSlot_unitOf_other hw]

theorem setSlot_getElem_same {u : UnitId} {n : Nat} {s : State} (h : n < (unitOf s u).slots.length) (v : Slot) :
    (unitOf (setSlot u n v s) u).slots[n]? = some v := by
  rw [setSlot_slots_same, List.getElem?_set_self h]

theorem setSlot_length (u w : UnitId) (n : Nat) (v : Slot) (s : State) :
    (unitOf (setSlot u n v s) w).slots.length = (unitOf s w).slots.length := by
  by_cases hw : w = u
  · subst hw; rw [setSlot_slots_same, List.length_set]
  · rw [setSlot_unitOf_other hw]

theorem setSlot_programLoaded (u w : UnitId) (n : Nat) (v : Slot) (s : State) :
    (unitOf (setSlot u n v s) w).programLoaded = (unitOf s w).programLoaded := by
  by_cases hw : w = u
  · subst hw; simp [setSlot]
  · rw [setSlot_unitOf_other hw]

theorem setSlot_progFits (u w : UnitId) (n : Nat) (v : Slot) (s : State) :
    (unitOf (setSlot u n v s) w).progFits = (unitOf s w).progFits := by
  by_cases hw : w = u
  · subst hw; simp [setSlot]
  · rw [setSlot_unitOf_other hw]

theorem loadProgram_slots (u w : UnitId) (s : State) :
    (unitOf (loadProgram u s) w).slots = (unitOf s w).slots := by
  cases u <;> cases w <;> rfl

theorem loadProgram_progFits (u w : UnitId) (s : State) :
    (unitOf (loadProgram u s) w).progFits = (unitOf s w).progFits := by
  cases u <;> cases w <;> rfl

theorem loadProgram_programLoaded (u w : UnitId) (s : State) :
    (unitOf (loadProgram u s) w).programLoaded = (decide (w = u) || (unitOf s w).programLoaded) := by
  cases u <;> cases w <;> rfl

theorem envSetProgFits_slots (u w : UnitId) (b : Bool) (s : State) :
    (unitOf (envSetProgFits u b s) w).slots = (unitOf s w).slots := by
  cases u <;> cases w <;> rfl

theorem envSetProgFits_programLoaded (u w : UnitId) (b : Bool) (s : State) :
    (unitOf (envSetProgFits u b s) w).programLoaded = (unitOf s w).programLoaded := by
  cases u <;> cases w <;> rfl

/-- A slot is there where its claim-table entry is. -/
theorem claimOf_some {s : State} {u : UnitId} {n : Nat} {c : Claim} (h : claimOf s u n = some c) :
    ∃ v, (unitOf s u).slots[n]? = some v ∧ v.claim = c := by
  simpa [claimOf] using h

theorem claimOf_lt {s : State} {u : UnitId} {n : Nat} {c : Claim} (h : claimOf s u n = some c) :
    n < (unitOf s u).slots.length := by
  obtain ⟨v, hv, -⟩ := claimOf_some h
  exact (List.getElem?_eq_some_iff.1 hv).1

/-- An environment claim either finds the entry FREE and takes it, or changes nothing (R226). -/
theorem envClaimSlot_cases (u : UnitId) (n c : Nat) (s : State) :
    (claimOf s u n = some .free ∧ envClaimSlot u n c s = setSlot u n ⟨.held (.env c), none⟩ s) ∨
    (claimOf s u n ≠ some .free ∧ envClaimSlot u n c s = s) := by
  unfold envClaimSlot
  split
  · next h => exact .inl ⟨h, rfl⟩
  · next h => exact .inr ⟨fun hf => h hf, rfl⟩

/-- An environment release either finds the entry held by the environment and frees it, or changes nothing (R226). -/
theorem envReleaseSlot_cases (u : UnitId) (n : Nat) (s : State) :
    ((∃ c, claimOf s u n = some (.held (.env c))) ∧ envReleaseSlot u n s = setSlot u n ⟨.free, none⟩ s) ∨
    ((∀ c, claimOf s u n ≠ some (.held (.env c))) ∧ envReleaseSlot u n s = s) := by
  unfold envReleaseSlot
  split
  · next c h => exact .inl ⟨⟨c, h⟩, rfl⟩
  · next h => exact .inr ⟨fun c hf => h c hf, rfl⟩

/-- Whether a launch has a shared pin depends on the bindings alone. -/
theorem pinsDistinct_congr {s t : State} (hb : t.inst.bind = s.inst.bind) (hp : t.peers = s.peers) :
    pinsDistinct t = pinsDistinct s := by
  simp only [pinsDistinct, boundInsts, allInsts, hp, List.filter_cons, hb]
  split <;> simp [hb]

/-- Whether the configurations are well-formed depends on the configurations alone. -/
theorem cfgsWf_congr {s t : State} (hc : t.platform = s.platform) (hm : t.inst.matrix = s.inst.matrix)
    (hp : t.peers = s.peers) : cfgsWf t = cfgsWf s := by
  simp [cfgsWf, allInsts, cfgOf, hc, hm, hp]

/-! ## INIT's writes -/

/-- The instance after a successful INIT (R101). -/
theorem bindSlot_inst (u : UnitId) (n pin : Nat) (s : State) :
    (bindSlot u n pin s).inst = { s.inst with
      pc := s.inst.pc + 1, bind := ⟨true, u, BitVec.ofNat 8 n, BitVec.ofNat 8 pin⟩, status := 0x00,
      phase := .idle, ledptr := 0, bitptr := 0, fb := some [], dout := .low } := by
  simp [bindSlot, fbCreate, ResultCode.code]

/-- The units after a successful INIT: the slot is claimed and configured, the program loaded (R101, R105). -/
theorem bindSlot_unitOf (u w : UnitId) (n pin : Nat) (s : State) :
    unitOf (bindSlot u n pin s) w =
      unitOf (loadProgram u (claimSlot u n (BitVec.ofNat 8 pin) s)) w := by
  cases w <;> simp [bindSlot, fbCreate, unitOf]

@[simp] theorem bindSlot_platform (u : UnitId) (n pin : Nat) (s : State) : (bindSlot u n pin s).platform = s.platform := by
  simp [bindSlot, fbCreate]

@[simp] theorem bindSlot_peers (u : UnitId) (n pin : Nat) (s : State) : (bindSlot u n pin s).peers = s.peers := by
  simp [bindSlot, fbCreate]

@[simp] theorem bindSlot_schedule (u : UnitId) (n pin : Nat) (s : State) :
    (bindSlot u n pin s).schedule = s.schedule := by
  simp [bindSlot, fbCreate]

/-- The slots after a successful INIT. -/
theorem bindSlot_slots (u w : UnitId) (n pin : Nat) (s : State) :
    (unitOf (bindSlot u n pin s) w).slots =
      (unitOf (setSlot u n ⟨.held (.inst s.inst.id), some ⟨BitVec.ofNat 8 pin, fBit⟩⟩ s) w).slots := by
  rw [bindSlot_unitOf, loadProgram_slots]; rfl

end Sys2Proof.Machine
end

