-- ==== Sys2Proof/Laws/PerInstr.lean ====
section
/-! SUPPORT. Statements about every command as syntax, one lemma per constructor. -/

namespace Sys2Proof.Laws.OpcodeSelects

/-- The opcode field of a command's word is the command's own opcode, and one of those R78 assigns. -/
def Statement (i : Instr) : Prop :=
  opField (encode i) = opcode i ∧ 1 ≤ (opcode i).toNat ∧ (opcode i).toNat ≤ 5

theorem opField_encode (i : Instr) : opField (encode i) = opcode i := by
  apply BitVec.eq_of_toNat_eq
  have := (operandBits i).isLt
  rw [opField_toNat, encode_toNat]
  omega

theorem init (pin : Nat) : Statement (.init pin) := ⟨opField_encode _, by simp [opcode], by simp [opcode]⟩

theorem clear : Statement .clear := ⟨opField_encode _, by simp [opcode], by simp [opcode]⟩

theorem set (index : Nat) (color : Color) : Statement (.set index color) := ⟨opField_encode _, by simp [opcode], by simp [opcode]⟩

theorem setxy (x y : Nat) (color : Color) : Statement (.setxy x y color) := ⟨opField_encode _, by simp [opcode], by simp [opcode]⟩

theorem commit : Statement .commit := ⟨opField_encode _, by simp [opcode], by simp [opcode]⟩

end Sys2Proof.Laws.OpcodeSelects
end

