-- ==== Sys2Proof/Laws/WellFormed.lean ====
section
/-! SUPPORT. What a well-formed configuration gives later proofs. -/

namespace Sys2Proof

theorem Cfg.wf_iff {c : Cfg} :
    c.wf = true ↔ c.toPlatformCfg.wf = true ∧ c.toMatrixCfg.wf = true ∧ c.glyphsInside = true := by
  simp [Cfg.wf, and_assoc]

/-- The conditions of R9 on the platform's parameters, together. -/
theorem PlatformCfg.wf_iff {c : PlatformCfg} :
    c.wf = true ↔ (1 ≤ c.slots ∧ c.slots ≤ 256) ∧ 0 < c.t0h ∧ c.t0h < c.t1h ∧ c.t1h < 1250 := by
  unfold PlatformCfg.wf tBit
  simp only [Bool.and_eq_true, decide_eq_true_eq, and_assoc]

/-- The numeric conditions of R9 on a matrix's parameters, together. -/
theorem MatrixCfg.wf_bounds {c : MatrixCfg} (h : c.wf = true) :
    (1 ≤ c.width ∧ c.width ≤ 65535) ∧ (1 ≤ c.height ∧ c.height ≤ 65535) ∧ c.width * c.height ≤ 2 ^ 32 ∧
      0 < c.tReset := by
  unfold MatrixCfg.wf at h
  simp only [Bool.and_eq_true, decide_eq_true_eq] at h
  obtain ⟨⟨⟨⟨hw, hh⟩, hn⟩, hr⟩, -⟩ := h
  exact ⟨hw, hh, hn, hr⟩

theorem MatrixCfg.wf_wireOrder {c : MatrixCfg} (h : c.wf = true) : c.wireOrder.isPermutation = true := by
  simp only [MatrixCfg.wf, Bool.and_eq_true] at h
  exact h.2

end Sys2Proof
end

