-- ==== Sys2Proof/Laws/Step.lean ====
section
/-! SUPPORT. What a meaning, an agent's step and a step of the platform can do: one inversion lemma each, from which the
invariants are derived. -/

namespace Sys2Proof.Machine

/-- Everything a meaning that answers a next state can have done. -/
theorem exec_next {i : Instr} {s t : State} (h : exec i s = .next t) :
    (∃ f, t = raiseFault f s ∧
      ((f = .unbound ∧ s.inst.bind.bound = false ∧ ∀ pin, i ≠ .init pin) ∨
       (∃ pin, i = .init pin ∧ ((f = .reinit ∧ s.inst.bind.bound = true) ∨
         (s.inst.bind.bound = false ∧ (f = .pin ∨ f = .noSlot)))))) ∨
    (s.inst.bind.bound = true ∧ (∀ pin, i ≠ .init pin) ∧ ∃ r, (r = .errIndex ∨ r = .errCoord) ∧ t = retire r s) ∨
    (s.inst.bind.bound = true ∧ (∀ pin, i ≠ .init pin) ∧ ∃ m m', s.inst.fb = some m ∧ t = retire .ok (setFb m' s) ∧
      (m' = [] ∨ ∃ a c, a < ledCount s.inst.matrix ∧ m' = Memory.write m a c)) ∨
    (i = .commit ∧ s.inst.bind.bound = true ∧ t = setSerializer .shift 0 0 s) ∨
    (∃ pin u, i = .init pin ∧ s.inst.bind.bound = false ∧ pinCapable s.platform pin = true ∧ pickUnit s = some u ∧
      t = countDraw (bindSlot u (chosenSlot s u) pin s)) := by
  cases i with
  | init pin =>
    simp only [exec, execInit] at h
    split at h
    · next hb => cases h; exact .inl ⟨.reinit, rfl, .inr ⟨pin, rfl, .inl ⟨rfl, hb⟩⟩⟩
    next hb =>
    have hb : s.inst.bind.bound = false := by simpa using hb
    split at h
    · cases h; exact .inl ⟨.pin, rfl, .inr ⟨pin, rfl, .inr ⟨hb, .inl rfl⟩⟩⟩
    next hp =>
    have hp : pinCapable s.platform pin = true := by simpa using hp
    split at h
    · next u hu => cases h; exact .inr (.inr (.inr (.inr ⟨pin, u, rfl, hb, hp, hu, rfl⟩)))
    · cases h; exact .inl ⟨.noSlot, rfl, .inr ⟨pin, rfl, .inr ⟨hb, .inr rfl⟩⟩⟩
  | clear =>
    by_cases hb : s.inst.bind.bound = true
    · rw [exec, execClear, whenBound_bound hb] at h
      obtain ⟨t', h1, h2⟩ := onNext_eq_next h
      obtain ⟨m, hm, rfl⟩ := fbClear_next h1
      cases h2
      exact .inr (.inr (.inl ⟨hb, by simp, m, [], hm, rfl, .inl rfl⟩))
    · rw [Bool.not_eq_true] at hb
      rw [exec, execClear, whenBound_unbound hb] at h
      cases h
      exact .inl ⟨.unbound, rfl, .inl ⟨rfl, hb, by simp⟩⟩
  | set index color =>
    by_cases hb : s.inst.bind.bound = true
    · rw [exec, execSet, whenBound_bound hb] at h
      split at h
      · obtain ⟨t', h1, h2⟩ := onNext_eq_next h
        obtain ⟨m, hm, hi, rfl⟩ := fbWrite_next h1
        cases h2
        exact .inr (.inr (.inl ⟨hb, by simp, m, _, hm, rfl, .inr ⟨_, _, hi, rfl⟩⟩))
      · cases h
        exact .inr (.inl ⟨hb, by simp, .errIndex, .inl rfl, rfl⟩)
    · rw [Bool.not_eq_true] at hb
      rw [exec, execSet, whenBound_unbound hb] at h
      cases h
      exact .inl ⟨.unbound, rfl, .inl ⟨rfl, hb, by simp⟩⟩
  | setxy x y color =>
    by_cases hb : s.inst.bind.bound = true
    · rw [exec, execSetxy, whenBound_bound hb] at h
      split at h
      · obtain ⟨t', h1, h2⟩ := onNext_eq_next h
        obtain ⟨m, hm, hi, rfl⟩ := fbWrite_next h1
        cases h2
        exact .inr (.inr (.inl ⟨hb, by simp, m, _, hm, rfl, .inr ⟨_, _, hi, rfl⟩⟩))
      · cases h
        exact .inr (.inl ⟨hb, by simp, .errCoord, .inr rfl, rfl⟩)
    · rw [Bool.not_eq_true] at hb
      rw [exec, execSetxy, whenBound_unbound hb] at h
      cases h
      exact .inl ⟨.unbound, rfl, .inl ⟨rfl, hb, by simp⟩⟩
  | commit =>
    by_cases hb : s.inst.bind.bound = true
    · rw [exec, execCommit, whenBound_bound hb] at h
      cases h
      exact .inr (.inr (.inr (.inl ⟨rfl, hb, rfl⟩)))
    · rw [Bool.not_eq_true] at hb
      rw [exec, execCommit, whenBound_unbound hb] at h
      cases h
      exact .inl ⟨.unbound, rfl, .inl ⟨rfl, hb, by simp⟩⟩

/-- Everything a host step that answers a next state can have done: nothing (held), the fault of an illegal word, or the
meaning of the decoded command. -/
theorem hostStep_next {s t : State} (h : hostStep s = .next t) :
    t = s ∨
    (s.inst.fault = 0 ∧ s.inst.phase = .idle ∧ ∃ w, fetch s.inst = some w ∧
      ((∃ why, decode w = .illegal why ∧ t = raiseFault .illegal s) ∨
       (∃ i, decode w = .command i ∧ exec i s = .next t))) := by
  unfold hostStep at h
  split at h
  · next hf =>
    split at h
    · cases h; exact .inl rfl
    · next w hw =>
      split at h
      · cases h; exact .inl rfl
      · cases h; exact .inl rfl
      · next hp =>
        refine .inr ⟨hf, hp, w, hw, ?_⟩
        split at h
        · next why hd => cases h; exact .inl ⟨why, hd, rfl⟩
        · next i hd => exact .inr ⟨i, hd, h⟩
  · cases h; exact .inl rfl

/-- Everything a shift step that answers a next state can have done. -/
theorem shiftStep_next {s t : State} (h : shiftStep s = .next t) :
    ∃ m, s.inst.fb = some m ∧ s.inst.ledptr.toNat < ledCount s.inst.matrix ∧
      t = advance (ledCount s.inst.matrix) s.inst.ledptr s.inst.bitptr
        (emit (.bit (wireBit s.inst.matrix.wireOrder (Memory.read m s.inst.ledptr.toNat) s.inst.bitptr.toNat)) s) := by
  unfold shiftStep at h
  split at h
  · cases h
  · next c hc =>
    obtain ⟨m, hm, hi, rfl⟩ := fbRead_ok hc
    cases h
    exact ⟨m, hm, hi, rfl⟩

/-- The three ways the pointers move on (R174). -/
theorem advance_cases (n : Nat) (k : BitVec 32) (j : BitVec 5) (s : State) :
    (j.toNat < 23 ∧ advance n k j s = setSerializer .shift k (j + 1) s) ∨
    (23 ≤ j.toNat ∧ k.toNat < n - 1 ∧ advance n k j s = setSerializer .shift (k + 1) 0 s) ∨
    (23 ≤ j.toNat ∧ n - 1 ≤ k.toNat ∧ advance n k j s = setSerializer .latch k 0 s) := by
  unfold advance
  split
  · next h => exact .inl ⟨h, rfl⟩
  · next h =>
    split
    · next h' => exact .inr (.inl ⟨by omega, h', rfl⟩)
    · next h' => exact .inr (.inr ⟨by omega, by omega, rfl⟩)

/-- Everything a serializer step that answers a next state can have done: nothing (held), a shift or a latch step. -/
theorem serializerStep_next {s t : State} (h : serializerStep s = .next t) :
    t = s ∨ (s.inst.fault = 0 ∧ s.inst.phase = .shift ∧ shiftStep s = .next t) ∨
    (s.inst.fault = 0 ∧ s.inst.phase = .latch ∧ t = latchStep s) := by
  unfold serializerStep at h
  split at h
  · next hf =>
    split at h
    · cases h; exact .inl rfl
    · next hp => exact .inr (.inl ⟨hf, hp, h⟩)
    · next hp => cases h; exact .inr (.inr ⟨hf, hp, rfl⟩)
  · cases h; exact .inl rfl

/-! ## Which agents are enabled -/

/-- No agent of a faulted instance is enabled (R214). -/
theorem actorEnabled_stuck {i : Inst} (h : i.fault ≠ 0) (a : Actor) : actorEnabled a i = false := by
  cases a <;> simp only [actorEnabled, h, decide_false, Bool.false_and]

theorem actorEnabled_host_iff {i : Inst} :
    actorEnabled .host i = true ↔ i.fault = 0 ∧ i.phase = .idle ∧ ∃ w, fetch i = some w := by
  simp [actorEnabled, Option.isSome_iff_exists, and_assoc]

theorem actorEnabled_serializer_iff {i : Inst} :
    actorEnabled .serializer i = true ↔ i.fault = 0 ∧ i.phase ≠ .idle := by
  simp [actorEnabled]

/-- No agent of an instance whose program is over is enabled (R100, R172). -/
theorem actorEnabled_over {i : Inst} (hp : i.phase = .idle) (hf : fetch i = none) (a : Actor) :
    actorEnabled a i = false := by
  cases a <;> simp [actorEnabled, hp, hf]

/-- A held agent changes nothing (R12). -/
theorem runActor_held {a : Actor} {s : State} (h : actorEnabled a s.inst = false) : runActor a s = .next s := by
  cases a with
  | host =>
    simp only [runActor, hostStep]
    split
    · next hf =>
      split
      · rfl
      · next w hw =>
        split
        · rfl
        · rfl
        · next hp => simp [actorEnabled, hf, hp, hw] at h
    · rfl
  | serializer =>
    simp only [runActor, serializerStep]
    split
    · next hf =>
      split
      · rfl
      · next hp => simp [actorEnabled, hf, hp] at h
      · next hp => simp [actorEnabled, hf, hp] at h
    · rfl

/-! ## Which event comes next -/

theorem nextEvent_nil {s : State} (h : s.schedule = []) : nextEvent s = unscheduledEvent s := by
  simp [nextEvent, h]

theorem nextEvent_cons {s : State} {e : Event} {es : List Event} (h : s.schedule = e :: es) : nextEvent s = e := by
  simp [nextEvent, h]

/-- Where nothing is scheduled the focused instance's agent moves, or a further instance's enabled serializer. -/
theorem unscheduledEvent_cases (s : State) :
    unscheduledEvent s = .own (enabledActor s.inst) ∨
    (actorEnabled (enabledActor s.inst) s.inst = false ∧ ∃ k p, unscheduledEvent s = .peer k .serializer ∧
      s.peers[k]? = some p ∧ actorEnabled .serializer p = true) := by
  unfold unscheduledEvent
  split
  · exact .inl rfl
  · next h =>
    split
    · next k hk =>
      obtain ⟨hlt, hp, -⟩ := List.findIdx?_eq_some_iff_getElem.1 hk
      exact .inr ⟨by simpa using h, k, s.peers[k], rfl, List.getElem?_eq_getElem hlt, hp⟩
    · exact .inl rfl

theorem unscheduledEvent_ne_reset (s : State) : unscheduledEvent s ≠ .reset := by
  rcases unscheduledEvent_cases s with h | ⟨-, k, p, h, -, -⟩ <;> rw [h] <;> exact Event.noConfusion

/-- With nothing scheduled an enabled focused instance moves. -/
theorem scheduledStep_nil {s : State} (hs : s.schedule = [])
    (he : actorEnabled (enabledActor s.inst) s.inst = true) : scheduledStep s = runActor (enabledActor s.inst) s := by
  have hn : nextEvent s = .own (enabledActor s.inst) := by rw [nextEvent_nil hs]; simp [unscheduledEvent, he]
  have htail : { s with schedule := s.schedule.tail } = s := by rw [hs]; cases s; simp_all
  rw [scheduledStep, hn, htail]; rfl

theorem scheduledStep_cons {s : State} {e : Event} {es : List Event} (h : s.schedule = e :: es) :
    scheduledStep s = runEvent e { s with schedule := es } := by
  rw [scheduledStep, nextEvent_cons h, h]; rfl

theorem cfgsWf_iff {s : State} :
    cfgsWf s = true ↔ ∀ i ∈ allInsts s, (cfgOf s.platform i).wf = true := by
  simp [cfgsWf]

/-- The platform's part and every instance's own part are well-formed. -/
theorem cfgsWf_parts {s : State} (h : cfgsWf s = true) :
    s.platform.wf = true ∧ ∀ i ∈ allInsts s, i.matrix.wf = true :=
  ⟨(Cfg.wf_iff.1 (cfgsWf_iff.1 h s.inst List.mem_cons_self)).1, fun i hi => (Cfg.wf_iff.1 (cfgsWf_iff.1 h i hi)).2.1⟩

/-- A step answers a next state only for a launch inside the spec, and then the next event happened. -/
theorem step_next {s t : State} (h : step s = .next t) :
    cfgsWf s = true ∧ pinsDistinct s = true ∧
    runEvent (nextEvent s) { s with schedule := s.schedule.tail } = .next t := by
  unfold step platformStep at h
  split at h
  · cases h
  · next hw =>
    split at h
    · cases h
    · next hp => exact ⟨by simpa using hw, by simpa using hp, h⟩

/-- The step of a launch inside the spec. -/
theorem step_inSpec {s : State} (hw : cfgsWf s = true) (hp : pinsDistinct s = true) :
    step s = scheduledStep s := by
  simp [step, platformStep, hw, hp]

/-- A peer's step that answers a next state: none there, or the same step in the peer's place. -/
theorem peerStep_next {k : Nat} {a : Actor} {s t : State} (h : peerStep k a s = .next t) :
    (s.peers[k]? = none ∧ t = s) ∨
    (∃ p t', s.peers[k]? = some p ∧
      runActor a { s with inst := p, peers := s.peers.set k s.inst } = .next t' ∧ t = swapPeer k t') := by
  unfold peerStep at h
  split at h
  · next hk => cases h; exact .inl ⟨hk, rfl⟩
  · next p hk =>
    obtain ⟨t', h1, h2⟩ := onNext_eq_next h
    cases h2
    refine .inr ⟨p, t', hk, ?_, rfl⟩
    simpa [swapPeer, hk] using h1

/-! ## The frame of an agent's step, and invariants of every instance -/

/-- A meaning leaves the platform's configuration, the other instances, the schedule, and the instance's name, matrix and
program. -/
theorem exec_frame {i : Instr} {s t : State} (h : exec i s = .next t) :
    t.platform = s.platform ∧ t.peers = s.peers ∧ t.schedule = s.schedule ∧ t.inst.id = s.inst.id ∧
      t.inst.matrix = s.inst.matrix ∧ t.inst.prog = s.inst.prog := by
  rcases exec_next h with ⟨f, rfl, -⟩ | ⟨-, -, r, -, rfl⟩ | ⟨-, -, m, m', -, rfl, -⟩ | ⟨-, -, rfl⟩ |
    ⟨pin, u, -, -, -, -, rfl⟩ <;> simp [bindSlot_inst]

/-- A step of an agent leaves the platform's configuration, the other instances, the schedule, and the instance's name,
matrix and program. -/
theorem runActor_frame {a : Actor} {s t : State} (h : runActor a s = .next t) :
    t.platform = s.platform ∧ t.peers = s.peers ∧ t.schedule = s.schedule ∧ t.inst.id = s.inst.id ∧
      t.inst.matrix = s.inst.matrix ∧ t.inst.prog = s.inst.prog := by
  cases a with
  | host =>
    rcases hostStep_next h with rfl | ⟨-, -, w, -, ⟨why, -, rfl⟩ | ⟨i, -, h⟩⟩
    · simp
    · simp
    · exact exec_frame h
  | serializer =>
    rcases serializerStep_next h with rfl | ⟨-, -, h⟩ | ⟨-, -, rfl⟩
    · simp
    · obtain ⟨m, -, -, rfl⟩ := shiftStep_next h
      rcases advance_cases (ledCount s.inst.matrix) s.inst.ledptr s.inst.bitptr
        (emit (.bit (wireBit s.inst.matrix.wireOrder (Memory.read m s.inst.ledptr.toNat) s.inst.bitptr.toNat)) s) with
        ⟨-, h⟩ | ⟨-, -, h⟩ | ⟨-, -, h⟩ <;> rw [h] <;> simp
    · simp [latchStep]

/-- A peer's step as a change of that peer alone: the focused instance stays, the peer is replaced. -/
theorem peerStep_some {k : Nat} {a : Actor} {s t' : State} {p : Inst} (hk : s.peers[k]? = some p)
    (h : runActor a { s with inst := p, peers := s.peers.set k s.inst } = .next t') :
    peerStep k a s = .next { t' with inst := s.inst, peers := s.peers.set k t'.inst } := by
  obtain ⟨-, hp, -⟩ := runActor_frame h
  have hlt : k < s.peers.length := (List.getElem?_eq_some_iff.1 hk).1
  have hget : t'.peers[k]? = some s.inst := by rw [hp]; simp [hlt]
  have hset : t'.peers.set k t'.inst = s.peers.set k t'.inst := by rw [hp]; simp
  simp only [peerStep, hk, swapPeer, h, onNext_next, hget, hset]

/-- Everything a step of the platform that answers a next state can have been: a step of the focused instance, a step of a
peer in its place, an event that touches no instance, or a reset. -/
theorem step_kinds {s t : State} (h : step s = .next t) :
    (∃ a, nextEvent s = .own a ∧ runActor a { s with schedule := s.schedule.tail } = .next t) ∨
    (∃ k a p t', nextEvent s = .peer k a ∧ s.peers[k]? = some p ∧
      runActor a { s with schedule := s.schedule.tail, inst := p, peers := s.peers.set k s.inst } = .next t' ∧
      t = { t' with inst := s.inst, peers := s.peers.set k t'.inst }) ∨
    ((∀ a, nextEvent s ≠ .own a) ∧ t.inst = s.inst ∧ t.peers = s.peers ∧ t.platform = s.platform) ∨
    (nextEvent s = .reset ∧ t = resetPlatform { s with schedule := s.schedule.tail }) := by
  obtain ⟨-, -, h⟩ := step_next h
  cases he : nextEvent s with
  | own a => rw [he] at h; exact .inl ⟨a, rfl, h⟩
  | peer k a =>
    rw [he] at h
    rcases peerStep_next h with ⟨-, rfl⟩ | ⟨p, t', hk, hr, -⟩
    · exact .inr (.inr (.inl ⟨by simp, rfl, rfl, rfl⟩))
    · rw [runEvent, peerStep_some hk hr] at h
      cases h
      exact .inr (.inl ⟨k, a, p, t', rfl, hk, hr, rfl⟩)
  | envClaim u n c => rw [he] at h; cases h; exact .inr (.inr (.inl (by simp)))
  | envRelease u n => rw [he] at h; cases h; exact .inr (.inr (.inl (by simp)))
  | envProgFits u b => rw [he] at h; cases h; exact .inr (.inr (.inl (by simp)))
  | reset => rw [he] at h; cases h; exact .inr (.inr (.inr ⟨rfl, rfl⟩))

/-- An invariant of one instance that reset establishes and every agent's step keeps is kept by every step of the platform,
for every instance. -/
theorem step_keeps_everyInst {P : PlatformCfg → Inst → Prop} (hreset : ∀ c i, P c i → P c (resetInst i))
    (hact : ∀ a s t, s.platform.wf = true → s.inst.matrix.wf = true → P s.platform s.inst → runActor a s = .next t →
      P s.platform t.inst)
    {s t : State} (hs : ∀ i ∈ allInsts s, P s.platform i) (h : step s = .next t) :
    ∀ i ∈ allInsts t, P t.platform i := by
  have hfocus : P s.platform s.inst := hs _ (by simp [allInsts])
  have hpeers : ∀ p ∈ s.peers, P s.platform p := fun p hp => hs p (by simp [allInsts, hp])
  obtain ⟨hplat, hmat⟩ := cfgsWf_parts (step_next h).1
  rcases step_kinds h with ⟨a, -, hr⟩ | ⟨k, a, p, t', -, hk, hr, rfl⟩ | ⟨-, hi, hp, hc⟩ | ⟨-, rfl⟩
  · obtain ⟨fc, fp, -⟩ := runActor_frame hr
    rw [fc]
    intro i hmem
    rcases List.mem_cons.1 hmem with rfl | hmem
    · exact hact a _ t hplat (hmat _ (by simp [allInsts])) hfocus hr
    · rw [fp] at hmem; exact hpeers i hmem
  · have hpm : p ∈ s.peers := List.mem_of_getElem? hk
    have hnew : P s.platform t'.inst := hact a
      { s with schedule := s.schedule.tail, inst := p, peers := s.peers.set k s.inst } t' hplat
      (hmat p (by simp [allInsts, hpm])) (hpeers p hpm) hr
    have hc : t'.platform = s.platform := (runActor_frame hr).1
    intro i hmem
    simp only [hc]
    rcases List.mem_cons.1 hmem with rfl | hmem
    · exact hfocus
    · rcases List.mem_or_eq_of_mem_set hmem with hm | rfl
      · exact hpeers i hm
      · exact hnew
  · intro i hmem
    rw [hc]
    exact hs i (by simpa [allInsts, hi, hp] using hmem)
  · intro i hmem
    simp only [allInsts, resetPlatform, List.mem_cons, List.mem_map] at hmem
    rcases hmem with rfl | ⟨p, hp, rfl⟩
    · exact hreset _ _ hfocus
    · exact hreset _ _ (hpeers p hp)

end Sys2Proof.Machine
end

