-- ==== Sys2Proof/Laws/Run.lean ====
section
/-! SUPPORT. Runs of several steps, and that they are the runs of Host/Core.lean. -/

namespace Sys2Proof.Machine

@[simp] theorem runSteps_zero (s : State) : runSteps 0 s = .next s := rfl

/-- The step of a state with the configurations, the bindings and the peers of a launch inside the spec. -/
theorem step_of_inSpec {s t : State} (h : InSpec s) (hc : t.platform = s.platform)
    (hm : t.inst.matrix = s.inst.matrix) (hb : t.inst.bind = s.inst.bind) (hp : t.peers = s.peers) :
    step t = scheduledStep t :=
  step_inSpec (by rw [cfgsWf_congr hc hm hp]; exact h.1) (by rw [pinsDistinct_congr hb hp]; exact h.2)

/-- One step more at the end of a run that got to `t`. -/
theorem runSteps_succ {n : Nat} {s t : State} (h : runSteps n s = .next t) : runSteps (n + 1) s = step t := by
  rw [runSteps, h, onNext_next]

/-- One step more at the start of a run. -/
theorem runSteps_succ_left (n : Nat) (s : State) : runSteps (n + 1) s = onNext (step s) (runSteps n) := by
  induction n with
  | zero => rw [runSteps, runSteps, onNext_next]; cases step s <;> rfl
  | succ n ih =>
    rw [runSteps, ih]
    cases step s <;> rfl

/-- The runs of the host's interface are the same runs. -/
theorem core_run_eq_runSteps (n : Nat) (s : State) : Host.Core.run Sys2Proof.core n s = runSteps n s := by
  induction n generalizing s with
  | zero => rfl
  | succ n ih =>
    rw [runSteps_succ_left]
    have hstep : Sys2Proof.core.step s = step s := rfl
    cases h : step s with
    | next t => rw [h] at hstep; simp only [Host.Core.run, hstep, onNext_next]; exact ih t
    | fault r => rw [h] at hstep; simp only [Host.Core.run, hstep]; rfl
    | refused r => rw [h] at hstep; simp only [Host.Core.run, hstep]; rfl

end Sys2Proof.Machine
end

