-- ==== Sys2Proof/Laws/Waveform.lean ====
section
/-! SUPPORT. The waveform of a wire log, symbol by symbol (R180 to R184). -/

namespace Sys2Proof.Machine

@[simp] theorem lineTrace_nil (c : Cfg) (n : Nat) : lineTrace c n [] = [] := rfl

/-- A bit is its two parts, and the next symbol follows without a gap (R182). -/
@[simp] theorem lineTrace_bit (c : Cfg) (n : Nat) (b : Bool) (rest : List WireSym) :
    lineTrace c n (.bit b :: rest) = ⟨.high, highTime c b⟩ :: ⟨.low, lowTime c b⟩ :: lineTrace c (n + 1) rest := rfl

/-- The last latch gap of a wire log. -/
@[simp] theorem lineTrace_latch_last (c : Cfg) (n : Nat) : lineTrace c n [.latch] = [⟨.low, latchGap c n⟩] := rfl

/-- A latch gap with a frame after it: the gap, the host's idle time, the frame (R184). -/
@[simp] theorem lineTrace_latch_cons (c : Cfg) (n : Nat) (sym : WireSym) (rest : List WireSym) :
    lineTrace c n (.latch :: sym :: rest) =
      ⟨.low, latchGap c n⟩ :: ⟨.low, Config.idleTime n⟩ :: lineTrace c (n + 1) (sym :: rest) := rfl

end Sys2Proof.Machine
end

