-- ==== Sys2Proof/Tests/Slice0.lean ====
section
/-! SUPPORT. Tests with the expected values of 95_test_vectors.md, the smoke test of the well-formedness checks, and one
witness for the hypotheses of each statement that has some. -/

namespace Sys2Proof.Tests

open Sys2Proof.Machine

/-! ## States the tests start from -/

/-- The instance of V13 and V22: bound to slot 0 of the primary unit at pin 7, its next word `w`, its buffer `m`. -/
def boundInst (w : Word) (m : Memory) : Inst :=
  { Inst.initial 0 Cfg.default.toMatrixCfg [0x0100000000000007, w] with
    pc := 1, bind := ⟨true, .primary, 0, 7⟩, fb := some m, dout := .low }

/-- The unit that instance is bound on. -/
def heldUnit : SigUnit :=
  ⟨⟨.held (.inst 0), some ⟨7, fBit⟩⟩ :: List.replicate 3 ⟨.free, none⟩, true, true⟩

/-- A platform with that one instance. -/
def bound (w : Word) (m : Memory) : State :=
  { State.reset with primary := heldUnit, inst := boundInst w m }

/-- The same platform, the focused instance with another matrix. -/
def withMatrix (c : MatrixCfg) (s : State) : State := { s with inst := { s.inst with matrix := c } }

/-- The same platform, the focused instance with a matrix of another size. -/
def sized (width height : Nat) (s : State) : State :=
  withMatrix { s.inst.matrix with width := width, height := height } s

/-- The reset state about to run the word `w`. -/
def fresh (w : Word) : State := State.reset.withFetchWord 64 w.toNat

/-- A COMMIT under way. -/
def busy (p : Phase) (k : BitVec 32) (j : BitVec 5) (m : Memory) : State :=
  setSerializer p k j (bound 0x0500000000000000 m)

/-- Two instances, both bound: the second one to slot 1 at the pin `pin`. -/
def two (pin : Byte) : State :=
  { bound 0x0200000000000000 [] with
    primary := ⟨[⟨.held (.inst 0), some ⟨7, fBit⟩⟩, ⟨.held (.inst 1), some ⟨pin, fBit⟩⟩, ⟨.free, none⟩, ⟨.free, none⟩],
      true, true⟩
    peers := [{ boundInst 0x0500000000000000 [] with id := 1, bind := ⟨true, .primary, 1, pin⟩ }] }

/-- The same units with every slot of `u` held by the environment. -/
def envHolds (u : UnitId) (s : State) : State :=
  setUnit u { unitOf s u with slots := List.replicate 4 ⟨.held (.env 9), none⟩ } s

/-- What a step leaves in the focused instance. -/
def instAfter : Out → Option Inst
  | .next s => some s.inst
  | _ => none

/-! ## Well-formedness (R9, R86): one ill-formed term for each check -/

theorem test_wf_refuses_wide_pin : (Instr.init 256).wf = false := by decide

theorem test_wf_refuses_wide_index : (Instr.set 4294967296 Color.zero).wf = false := by decide

theorem test_wf_refuses_wide_x : (Instr.setxy 65536 0 Color.zero).wf = false := by decide

theorem test_wf_refuses_wide_y : (Instr.setxy 0 65536 Color.zero).wf = false := by decide

theorem test_wf_admits_boundaries :
    (Instr.init 255).wf = true ∧ Instr.clear.wf = true ∧ (Instr.set 4294967295 Color.zero).wf = true ∧
    (Instr.setxy 65535 65535 Color.zero).wf = true ∧ Instr.commit.wf = true := by decide

theorem test_cfg_admits_default : Cfg.default.wf = true := by decide

theorem test_cfg_refuses_sizes :
    ({ Cfg.default with width := 0 } : Cfg).wf = false ∧ ({ Cfg.default with width := 65536 } : Cfg).wf = false ∧
    ({ Cfg.default with height := 0 } : Cfg).wf = false ∧ ({ Cfg.default with height := 65536 } : Cfg).wf = false := by
  decide

/-- The greatest sides fit: `65535 * 65535` is below `2 ^ 32`, so the third condition of R9 refuses nothing by itself. -/
theorem test_cfg_admits_greatest_sides :
    ({ Cfg.default with width := 65535, height := 65535 } : Cfg).wf = true ∧
    ({ Cfg.default with width := 65536, height := 65537 } : Cfg).wf = false := by decide

theorem test_cfg_refuses_slots :
    ({ Cfg.default with slots := 0 } : Cfg).wf = false ∧ ({ Cfg.default with slots := 257 } : Cfg).wf = false := by decide

theorem test_cfg_refuses_times :
    ({ Cfg.default with t0h := 0 } : Cfg).wf = false ∧ ({ Cfg.default with t0h := 800 } : Cfg).wf = false ∧
    ({ Cfg.default with t1h := 1250 } : Cfg).wf = false ∧ ({ Cfg.default with tReset := 0 } : Cfg).wf = false := by decide

theorem test_cfg_refuses_wire_order :
    ({ Cfg.default with wireOrder := ⟨.green, .green, .blue⟩ } : Cfg).wf = false ∧
    ({ Cfg.default with wireOrder := ⟨.green, .red, .green⟩ } : Cfg).wf = false ∧
    ({ Cfg.default with wireOrder := ⟨.red, .blue, .blue⟩ } : Cfg).wf = false := by decide

theorem test_cfg_refuses_glyph_cell :
    ({ Cfg.default with glyph := Cfg.default.glyph.set 3 [⟨5, 0⟩] } : Cfg).wf = false ∧
    ({ Cfg.default with glyph := Cfg.default.glyph.set 9 [⟨0, 5⟩] } : Cfg).wf = false := by decide

/-- The one GLYPH has to fit every instance's geometry (R160, R9): a further instance with a smaller matrix is refused. -/
theorem test_glyph_is_process_wide :
    let platform := { Cfg.default.toPlatformCfg with glyph := Cfg.default.glyph.set 1 [⟨2, 4⟩] }
    let small := Inst.initial 1 { Cfg.default.toMatrixCfg with height := 4 } []
    cfgsWf { State.reset with platform := platform } = true ∧
    cfgsWf { State.reset with platform := platform, peers := [small] } = false ∧
    cfgsWf { State.reset with peers := [small] } = true := by decide

/-! ## Decoding (V10, V11): words written out from the formats of R72 to R76 -/

theorem test_decode_init :
    decode 0x0100000000000000 = .command (.init 0) ∧ decode 0x0100000000000007 = .command (.init 7) ∧
    decode 0x01000000000000FF = .command (.init 255) := by decide

theorem test_decode_clear : decode 0x0200000000000000 = .command .clear := by decide

theorem test_decode_set :
    decode 0x0300000000000000 = .command (.set 0 ⟨0, 0, 0⟩) ∧
    decode 0x0300000018123456 = .command (.set 24 ⟨0x12, 0x34, 0x56⟩) ∧
    decode 0x03FFFFFFFF010203 = .command (.set 4294967295 ⟨1, 2, 3⟩) := by decide

theorem test_decode_setxy :
    decode 0x0400030001FF0000 = .command (.setxy 3 1 ⟨255, 0, 0⟩) ∧
    decode 0x040005000000FF00 = .command (.setxy 5 0 ⟨0, 255, 0⟩) ∧
    decode 0x04FFFFFFFF000000 = .command (.setxy 65535 65535 ⟨0, 0, 0⟩) := by decide

theorem test_decode_commit : decode 0x0500000000000000 = .command .commit := by decide

theorem test_decode_reserved_opcodes :
    decode 0x0000000000000000 = .illegal (.reservedOpcode 0x00) ∧
    decode 0x0600000000000000 = .illegal (.reservedOpcode 0x06) ∧
    decode 0xFF00000000000000 = .illegal (.reservedOpcode 0xFF) := by decide

theorem test_decode_reserved_bits :
    decode 0x0100000100000007 = .illegal (.reservedBits 0x01) ∧
    decode 0x0100000000000107 = .illegal (.reservedBits 0x01) ∧
    decode 0x0200000000000001 = .illegal (.reservedBits 0x02) ∧
    decode 0x0280000000000000 = .illegal (.reservedBits 0x02) ∧
    decode 0x0500000000000001 = .illegal (.reservedBits 0x05) := by decide

/-- Each constructor's word, written out field by field: opcode, then the fields of its format. -/
theorem test_encode_words :
    encode (.init 7) = 0x01#8 ++ 0#48 ++ 7#8 ∧ encode .clear = 0x02#8 ++ 0#56 ∧
    encode (.set 3 ⟨255, 0, 0⟩) = 0x03#8 ++ 3#32 ++ 0xFF0000#24 ∧
    encode (.setxy 4 1 ⟨0, 0, 255⟩) = 0x04#8 ++ 4#16 ++ 1#16 ++ 0x0000FF#24 ∧
    encode .commit = 0x05#8 ++ 0#56 := by decide

theorem test_decodeTableWord :
    decodeTableWord 64 0x0300000003FF0000 = some (.set 3 ⟨255, 0, 0⟩) ∧ decodeTableWord 64 0x0600000000000000 = none := by
  decide

/-! ## The first step after reset (V12, V60) -/

/-- V12, all free: whichever slot is drawn, INIT 7 retires with these registers. -/
theorem test_reset_init :
    let after := instAfter (step (fresh 0x0100000000000007))
    after.map (fun i => (i.pc, i.bind.bound, i.bind.unit, i.bind.pin)) = some (1, true, .primary, 7) ∧
    after.map (fun i => (i.status, i.fault, i.phase)) = some (0x00, 0x00, .idle) ∧
    after.map (fun i => (i.fb, i.dout, i.wire)) = some (some [], .low, []) := by decide

/-- V60: from reset, the fault each word raises; pc stays. -/
theorem test_reset_faults :
    ([0x0600000000000000, 0x0200000000000000, 0x0500000000000000, 0x0400090009000000, 0x0300000063000000,
      0x0100000000000028].map fun w => (instAfter (step (fresh w))).map fun i => (i.fault, i.pc, i.bind.word)) =
    [some (0x04, 0, 0), some (0x02, 0, 0), some (0x02, 0, 0), some (0x02, 0, 0), some (0x02, 0, 0),
      some (0x05, 0, 0)] := by decide

/-! ## INIT (V12) -/

/-- Unit 0 full, one slot free on unit 1: no draw is left, and INIT 0 gives BIND = 0x00000203. -/
theorem test_init_secondary :
    let s := envHolds .primary (fresh 0x0100000000000000)
    let t := setUnit .secondary ⟨[⟨.held (.env 9), none⟩, ⟨.held (.env 9), none⟩, ⟨.free, none⟩, ⟨.held (.env 9), none⟩],
      false, true⟩ s
    freeSlots t .secondary = [2] ∧ pickUnit t = some .secondary ∧
    (bindSlot .secondary 2 0 t).inst.bind.word = 0x00000203 := by decide

/-- Both units full: F_NO_SLOT for a capable pin, F_PIN for another; a bound instance: F_REINIT. -/
theorem test_init_faults :
    let full := envHolds .secondary (envHolds .primary State.reset)
    (instAfter (exec (.init 7) full)).map (·.fault) = some 0x01 ∧
    (instAfter (exec (.init 40) full)).map (·.fault) = some 0x05 ∧
    (instAfter (exec (.init 40) (bound 0 []))).map (·.fault) = some 0x03 := by decide

/-! ## CLEAR, SET and SETXY (V13, V20 to V22) -/

theorem test_clear :
    instAfter (step (bound 0x0200000000000000 [(3, ⟨255, 0, 0⟩)])) =
    some { boundInst 0x0200000000000000 [] with pc := 2 } := by decide

/-- V13: index 24 is written, index 25 is reported. -/
theorem test_set_boundary :
    instAfter (step (bound 0x0300000018123456 [])) =
      some { boundInst 0x0300000018123456 [(24, ⟨0x12, 0x34, 0x56⟩)] with pc := 2 } ∧
    instAfter (step (bound 0x0300000019FFFFFF [])) =
      some { boundInst 0x0300000019FFFFFF [] with pc := 2, status := 0x02 } := by decide

/-- V13: writing ZERO over a nonzero entry 5; and the 1 by 1 matrix. -/
theorem test_set_zero_and_smallest :
    (instAfter (exec (.set 5 ⟨0, 0, 0⟩) (bound 0 [(5, ⟨1, 1, 1⟩)]))).map (fun i => (i.fb, i.status)) = some (some [], 0) ∧
    (instAfter (exec (.set 0 ⟨1, 1, 1⟩) (sized 1 1 (bound 0 [])))).map (·.status) = some 0x00 ∧
    (instAfter (exec (.set 1 ⟨1, 1, 1⟩) (sized 1 1 (bound 0 [])))).map (·.status) = some 0x02 := by decide

/-- V22: which entry is written. -/
theorem test_setxy_writes :
    ([(0, 0, 0), (4, 0, 4), (4, 1, 5), (0, 1, 9), (0, 4, 20), (4, 4, 24)].map fun p =>
      (instAfter (exec (.setxy p.1 p.2.1 ⟨0, 0, 255⟩) (bound 0 []))).map fun i =>
        (decide (i.fb = some [(p.2.2, ⟨0, 0, 255⟩)]), i.status)) =
    List.replicate 6 (some (true, 0x00)) := by decide

/-- V22: the pairs outside the matrix, none of which aliases an entry. -/
theorem test_setxy_reports :
    ([(5, 0), (0, 5), (5, 5), (65535, 0), (0, 65535)].map fun p =>
      (instAfter (exec (.setxy p.1 p.2 ⟨0, 0, 255⟩) (bound 0 [(5, ⟨1, 1, 1⟩)]))).map fun i => (i.fb, i.status)) =
    List.replicate 5 (some (some [(5, ⟨1, 1, 1⟩)], 0x01)) := by decide

/-- V20 and V21: the map tables, row by row. -/
theorem test_map_tables :
    ((List.range 5).map fun y => (List.range 5).map fun x => mapIndex Cfg.default.toMatrixCfg x y) =
      [[0, 1, 2, 3, 4], [9, 8, 7, 6, 5], [10, 11, 12, 13, 14], [19, 18, 17, 16, 15], [20, 21, 22, 23, 24]] ∧
    ((List.range 3).map fun y => (List.range 4).map fun x => mapIndex { Cfg.default.toMatrixCfg with width := 4, height := 3 } x y) =
      [[0, 1, 2, 3], [7, 6, 5, 4], [8, 9, 10, 11]] ∧
    ((List.range 3).map fun y => mapIndex { Cfg.default.toMatrixCfg with width := 1, height := 3 } 0 y) = [0, 1, 2] ∧
    ((List.range 3).map fun x => mapIndex { Cfg.default.toMatrixCfg with width := 3, height := 1 } x 0) = [0, 1, 2] := by decide

/-! ## COMMIT and the serializer (V50, V53) -/

theorem test_commit_starts :
    instAfter (step (bound 0x0500000000000000 [])) =
    some { boundInst 0x0500000000000000 [] with phase := .shift } := by decide

/-- V53: the pointers after a bit that ends no LED, one that ends LED 0, and the last one. -/
theorem test_shift_pointers :
    ([(0#32, 0#5), (0#32, 23#5), (24#32, 23#5)].map fun p =>
      (instAfter (step (busy .shift p.1 p.2 []))).map fun i => (i.ledptr, i.bitptr, i.phase, i.wire)) =
    [some (0, 1, .shift, [.bit false]), some (1, 0, .shift, [.bit false]), some (24, 0, .latch, [.bit false])] := by decide

theorem test_latch :
    instAfter (step (busy .latch 24 0 [])) =
    some { boundInst 0x0500000000000000 [] with pc := 2, ledptr := 24, wire := [.latch] } := by decide

/-- V50: the words under both orders. -/
theorem test_wire_words :
    wireWord ⟨.green, .red, .blue⟩ ⟨0x12, 0x34, 0x56⟩ = 0b001101000001001001010110#24 ∧
    wireWord ⟨.red, .green, .blue⟩ ⟨0x12, 0x34, 0x56⟩ = 0b000100100011010001010110#24 ∧
    wireWord ⟨.green, .red, .blue⟩ ⟨100, 0, 0⟩ = 0b000000000110010000000000#24 := by decide

/-- V50, row `#010203` under GRB, bit by bit in the order they leave. -/
theorem test_wire_bits :
    ((List.range 24).filter fun j => wireBit ⟨.green, .red, .blue⟩ ⟨1, 2, 3⟩ j) = [6, 15, 22, 23] := by decide

/-- V60: a busy instance holds its host, a faulted one everything, and a finished program stays. -/
theorem test_holds :
    hostStep (busy .shift 3 4 []) = .next (busy .shift 3 4 []) ∧
    step (raiseFault .unbound State.reset) = .next (raiseFault .unbound State.reset) ∧
    step State.reset = .next State.reset := ⟨rfl, rfl, rfl⟩

/-! ## RENDER, SHOWDIGIT and the assembler (R166, V10, V30) -/

/-- The test glyph of R166. -/
def glyphCfg : Cfg := { Cfg.default with
  glyph := Cfg.default.glyph.set 1 [⟨2, 4⟩, ⟨2, 0⟩, ⟨2, 2⟩, ⟨2, 1⟩, ⟨2, 3⟩] }

theorem test_render_words :
    asmOfExpansion (expandRender glyphCfg 1 ⟨0, 0, 255⟩) =
    .words [0x04000200000000FF, 0x04000200010000FF, 0x04000200020000FF, 0x04000200030000FF, 0x04000200040000FF] := by
  decide

theorem test_render_rejects_digit :
    expandRender glyphCfg 10 ⟨0, 0, 255⟩ = .reported .errDigit ∧
    expandShowDigit glyphCfg 10 ⟨0, 0, 255⟩ = .reported .errDigit ∧
    expandRender glyphCfg 0 ⟨0, 0, 255⟩ = .commands [] := by decide

theorem test_assembler_lines :
    assembleLine glyphCfg ['S', 'E', 'T', 'X', 'Y', ' ', '0', 'x', '5', ',', '0', ',', ' ', '#', '0', '0', 'F', 'F', '0', '0',
      ' ', ';', 'x'] = .words [0x040005000000FF00] ∧
    assembleLine glyphCfg ['I', 'N', 'I', 'T', ' ', '2', '5', '6'] = .refused .pinTooLarge ∧
    assembleLine glyphCfg ['R', 'E', 'N', 'D', 'E', 'R', ' ', '1', '0', ',', '#', '0', '0', '0', '0', 'F', 'F'] =
      .reported .errDigit ∧
    assembleLine glyphCfg [';', 'x'] = .words [] := by decide

/-! ## The observation port -/

/-- R112: BIND for pin 7 and slot 0 of the secondary unit; GEOM of a 5 by 5 matrix (R29). -/
theorem test_registers :
    (bindSlot .secondary 0 7 State.reset).inst.bind.word = 0x00070003 ∧
    readRegister (bound 0 []).inst 0x0 = 0x00070001 ∧ readRegister State.reset.inst 0x6 = 0x00050005 ∧
    readRegister (busy .latch 24 0 []).inst 0x3 = 2 ∧ readRegister (busy .shift 24 23 []).inst 0x5 = 23 ∧
    observeFb (bound 0 [(24, ⟨1, 2, 3⟩)]).inst 24 = some ⟨1, 2, 3⟩ ∧ observeFb State.reset.inst 0 = none := by decide

/-! ## Witnesses: for each statement with hypotheses, states and operands that meet them -/

theorem witness_PowerOnStateHasTheResetValues : 0 < State.reset.platform.slots ∧ 3 < State.reset.platform.slots := by decide

theorem witness_ResetEventRestoresEveryInstance :
    let s := { two 9 with schedule := [.reset] }
    InSpec s ∧ s.schedule = .reset :: [] ∧ 3 < s.platform.slots := by decide

/-- One configuration for each condition of R9 that can fail, and a further instance with one that fails. -/
theorem witness_IllFormedConfigurationIsRefused :
    let platform := fun c : Cfg => { State.reset with platform := c.toPlatformCfg }
    let matrix := fun c : Cfg => withMatrix c.toMatrixCfg State.reset
    ¬ 1 ≤ (matrix { Cfg.default with width := 0 }).inst.matrix.width ∧
    ¬ (matrix { Cfg.default with height := 65536 }).inst.matrix.height ≤ 65535 ∧
    ¬ (matrix { Cfg.default with width := 65537, height := 65536 }).inst.matrix.width * 65536 ≤ 2 ^ 32 ∧
    ¬ (platform { Cfg.default with slots := 257 }).platform.slots ≤ 256 ∧
    ¬ (platform { Cfg.default with t1h := 1250 }).platform.t1h < 1250 ∧
    ¬ 0 < (matrix { Cfg.default with tReset := 0 }).inst.matrix.tReset ∧
    ¬ [(.red : Channel), .red, .blue].Perm [.red, .green, .blue] ∧
    (⟨5, 0⟩ : Cell) ∈ glyphCells { Cfg.default.toPlatformCfg with glyph := Cfg.default.glyph.set 9 [⟨5, 0⟩] } 9 ∧
    ∃ i ∈ allInsts { State.reset with peers := [Inst.initial 1 { Cfg.default.toMatrixCfg with height := 0 } []] },
      ¬ 1 ≤ i.matrix.height := by decide

theorem witness_SharedPinLaunchIsRefused :
    let s := two 7
    cfgsWf s = true ∧ (0 : Nat) ≠ 1 ∧
    (allInsts s)[0]? = some (boundInst 0x0200000000000000 []) ∧
    (allInsts s)[1]? = some { boundInst 0x0500000000000000 [] with id := 1, bind := ⟨true, .primary, 1, 7⟩ } := by decide

/-- One word for each clause, at the ends of its fields. -/
theorem witness_DecoderReadsEveryField :
    0x01000000000000FF / 2 ^ 56 = 1 ∧ 0x01000000000000FF / 2 ^ 8 % 2 ^ 48 = 0 ∧
    0x0200000000000000 / 2 ^ 56 = 2 ∧ 0x0200000000000000 % 2 ^ 56 = 0 ∧
    0x03FFFFFFFFFFFFFF / 2 ^ 56 = 3 ∧ 0x04FFFFFFFFFFFFFF / 2 ^ 56 = 4 ∧
    0x0500000000000000 / 2 ^ 56 = 5 ∧ 0x0500000000000000 % 2 ^ 56 = 0 ∧
    0x00FFFFFFFFFFFFFF / 2 ^ 56 = 0 ∧ 5 < 0x0600000000000000 / 2 ^ 56 ∧
    0x0100000000000100 / 2 ^ 8 % 2 ^ 48 ≠ 0 ∧ 0x0280000000000000 % 2 ^ 56 ≠ 0 ∧ 0x0500000000000001 % 2 ^ 56 ≠ 0 := by
  decide

theorem witness_DecodeOfEncodeIsTheCommand : (Instr.setxy 65535 65535 ⟨255, 255, 255⟩).wf = true := by decide

theorem witness_EveryCommandHasOneWord :
    decode 0x03FFFFFFFF010203 = .command (.set 4294967295 ⟨1, 2, 3⟩) := by decide

theorem witness_StepRunsTheDecodedCommand :
    let s := bound 0x0300000018123456 []
    let t := { s with schedule := [.own .host] }
    InSpec s ∧ Ready s.inst 0x0300000018123456 ∧ s.schedule = [] ∧ InSpec t ∧ Ready t.inst 0x0300000018123456 ∧
    t.schedule = .own .host :: [] ∧ decode 0x0300000018123456 = .command (.set 24 ⟨0x12, 0x34, 0x56⟩) := by decide

/-- The second instance starts its COMMIT. -/
theorem witness_PeerStepIsTheSameStepInItsPlace :
    let s := { two 9 with schedule := [.peer 0 .host] }
    ∃ p t, InSpec s ∧ s.schedule = .peer 0 .host :: [] ∧ s.peers[0]? = some p ∧
      runActor .host { s with schedule := [], inst := p, peers := s.peers.set 0 s.inst } = .next t :=
  ⟨{ boundInst 0x0500000000000000 [] with id := 1, bind := ⟨true, .primary, 1, 9⟩ }, _, by decide, rfl, rfl, rfl⟩

/-- The program of the first instance is over, and the second one's serializer is at work. -/
theorem witness_PeerStepIsTheSameStepInItsPlace_unscheduled :
    let p := { boundInst 0x0500000000000000 [] with id := 1, bind := ⟨true, .primary, 1, 9⟩, phase := .latch, ledptr := 24 }
    let s := { two 9 with peers := [p], inst := { (two 9).inst with pc := 2 } }
    ∃ t, InSpec s ∧ s.schedule = [] ∧ (s.inst.phase = .idle ∧ fetch s.inst = none) ∧ s.peers[0]? = some p ∧
      p.fault = 0 ∧ p.phase ≠ .idle ∧ serializerStep { s with inst := p, peers := s.peers.set 0 s.inst } = .next t :=
  ⟨_, by decide, rfl, ⟨rfl, rfl⟩, rfl, rfl, by decide, rfl⟩

theorem witness_IllegalWordRaisesIllegal :
    let s := fresh 0x0100000000000107
    InSpec s ∧ Ready s.inst 0x0100000000000107 ∧ decode 0x0100000000000107 = .illegal (.reservedBits 0x01) ∧
    s.schedule = [] ∧ InSpec { s with schedule := [.own .host] } := by decide

theorem witness_UnboundCommandRaisesUnbound :
    State.reset.inst.bind.bound = false ∧ ∀ pin, Instr.setxy 9 9 Color.zero ≠ .init pin := by
  refine ⟨rfl, ?_⟩
  intro _ h
  cases h

/-- Each way to be held: faulted, program over, busy; the serializer idle; a run that ended well. -/
theorem witness_HeldStepChangesNothing :
    let now := fun (e : List Event) (s : State) => { s with schedule := e }
    let stuck := raiseFault .unbound (bound 0x0200000000000000 [])
    InSpec (now [.own .host] stuck) ∧ Stuck stuck.inst ∧
    InSpec (now [.own .host] State.reset) ∧ fetch State.reset.inst = none ∧
    InSpec (now [.own .host] (busy .latch 24 0 [])) ∧ (busy .latch 24 0 []).inst.phase ≠ .idle ∧
    InSpec (now [.own .serializer] State.reset) ∧ State.reset.inst.phase = .idle ∧ EndedWell State.reset.inst ∧
    State.reset.schedule = [] ∧ (∀ p ∈ State.reset.peers, Stuck p ∨ p.phase = .idle) := by decide

/-- The primary unit usable; only the last slot of the secondary unit usable. -/
theorem witness_InitBindsOneFreeSlot :
    let s := State.reset
    let t := envHolds .primary State.reset
    s.inst.bind.bound = false ∧ pinCapable s.platform 29 = true ∧
    (3 < s.platform.slots ∧ claimOf s .primary 3 = some .free) ∧ (unitOf s .primary).progFits = true ∧
    (∀ n, n < t.platform.slots → claimOf t .primary n ≠ some .free) ∧
    (3 < t.platform.slots ∧ claimOf t .secondary 3 = some .free) ∧ (unitOf t .secondary).progFits = true := by decide

theorem witness_InitFaultsInOrder :
    let full := envHolds .secondary (envHolds .primary State.reset)
    (bound 0 []).inst.bind.bound = true ∧
    (full.inst.bind.bound = false ∧ 30 ∉ full.platform.pinOk ∧ 29 ∈ full.platform.pinOk) ∧
    (∀ n, n < full.platform.slots → claimOf full .primary n ≠ some .free ∧ claimOf full .secondary n ≠ some .free) := by decide

/-- A successful INIT and a faulting one. -/
theorem witness_InitFrame :
    State.reset.platform.wf = true ∧
    (∃ t, exec (.init 7) State.reset = .next t ∧ t.inst.bind ≠ State.reset.inst.bind) ∧
    (∃ t, exec (.init 30) State.reset = .next t ∧ t.inst.bind = State.reset.inst.bind) :=
  ⟨by decide, ⟨_, rfl, fun h => Bool.noConfusion (show true = false from congrArg BindReg.bound h)⟩, ⟨_, rfl, rfl⟩⟩

theorem witness_ClearZeroesEveryEntry :
    let s := bound 0x0200000000000000 [(3, ⟨255, 0, 0⟩)]
    s.inst.bind.bound = true ∧ s.inst.fb = some [(3, ⟨255, 0, 0⟩)] := by decide

theorem witness_ClearIsIdempotent :
    let s := bound 0x0200000000000000 [(3, ⟨255, 0, 0⟩)]
    ∃ t u, s.inst.bind.bound = true ∧ exec .clear s = .next t ∧ exec .clear t = .next u := ⟨_, _, rfl, rfl, rfl⟩

/-- Index 24 is the last entry, 25 the first outside. -/
theorem witness_SetWritesOrReports :
    let s := bound 0 [(3, ⟨255, 0, 0⟩)]
    s.inst.bind.bound = true ∧ s.inst.fb = some [(3, ⟨255, 0, 0⟩)] ∧ Memory.wf [(3, ⟨255, 0, 0⟩)] = true ∧
    s.inst.matrix.width * s.inst.matrix.height ≤ 25 ∧ 24 < s.inst.matrix.width * s.inst.matrix.height := by decide

theorem witness_SetxyWritesOrReports :
    let s := bound 0 [(3, ⟨255, 0, 0⟩)]
    s.inst.bind.bound = true ∧ s.inst.fb = some [(3, ⟨255, 0, 0⟩)] ∧ Memory.wf [(3, ⟨255, 0, 0⟩)] = true ∧
    s.inst.matrix.width ≤ 5 ∧ s.inst.matrix.height ≤ 5 ∧ 4 < s.inst.matrix.width ∧ 4 < s.inst.matrix.height := by decide

theorem witness_MapIsABijection :
    4 < Cfg.default.width ∧ 4 < Cfg.default.height ∧ 24 < Cfg.default.width * Cfg.default.height ∧
    mapIndex Cfg.default.toMatrixCfg 4 3 = mapIndex Cfg.default.toMatrixCfg 4 3 ∧ Memory.wf [(3, ⟨255, 0, 0⟩)] = true ∧
    (⟨4, 4⟩ : Cell) ≠ ⟨0, 0⟩ := by decide

theorem witness_RowsAreJoinedOnTheWire : 1 ≤ Cfg.default.width := by decide

theorem witness_ReportedErrorChangesStatusAndPcOnly :
    let s := bound 0 []
    s.inst.bind.bound = true ∧ s.inst.matrix.width * s.inst.matrix.height ≤ 25 ∧ s.inst.matrix.width ≤ 5 ∧ s.inst.matrix.height ≤ 5 := by decide

/-- A write of each kind, one bound and one unbound run. -/
theorem witness_BufferCommandFrame :
    let s := bound 0 [(3, ⟨255, 0, 0⟩)]
    (∃ t m', exec (.set 24 ⟨1, 2, 3⟩) s = .next t ∧ t.inst.fb = some m') ∧
    (∃ t m', exec (.setxy 4 1 ⟨1, 2, 3⟩) s = .next t ∧ t.inst.fb = some m') ∧
    (∃ t, exec (.set 25 ⟨1, 2, 3⟩) s = .next t ∧ indexInRange s.inst.matrix 25 = false) ∧
    (∃ t, exec (.setxy 5 0 ⟨1, 2, 3⟩) s = .next t ∧ coordInRange s.inst.matrix 5 0 = false) ∧
    (∃ t, exec .clear s = .next t ∧ s.inst.bind.bound = true) ∧
    (∃ t, exec .clear State.reset = .next t ∧ State.reset.inst.bind.bound = false) ∧
    s.inst.fb = some [(3, ⟨255, 0, 0⟩)] ∧ Memory.wf [(3, ⟨255, 0, 0⟩)] = true :=
  ⟨⟨_, _, rfl, rfl⟩, ⟨_, _, rfl, rfl⟩, ⟨_, rfl, rfl⟩, ⟨_, rfl, rfl⟩, ⟨_, rfl, rfl⟩, ⟨_, rfl, rfl⟩, rfl, by decide⟩

theorem witness_CommitStartsTheTransmission : (bound 0x0500000000000000 []).inst.bind.bound = true := by decide

theorem witness_CommitFrame :
    (∃ t, exec .commit (bound 0 []) = .next t ∧ (bound 0 []).inst.bind.bound = true) ∧
    (∃ t, exec .commit State.reset = .next t ∧ State.reset.inst.bind.bound = false) := ⟨⟨_, rfl, rfl⟩, ⟨_, rfl, rfl⟩⟩

theorem witness_WireBitsFollowTheWireOrder : (0 < 24 ∧ 7 < 24 ∧ 8 < 24 ∧ 15 < 24 ∧ 16 < 24 ∧ 23 < 24) := by decide

/-- One state for each of the three outcomes. -/
theorem witness_ShiftStepSendsOneBit :
    let ok := fun s : State => s.inst.fault = 0 ∧ s.inst.phase = .shift ∧ s.inst.fb = some [(24, ⟨1, 2, 3⟩)] ∧
      s.inst.ledptr.toNat < s.inst.matrix.width * s.inst.matrix.height ∧ s.inst.bitptr.toNat < 24
    ok (busy .shift 0 22 [(24, ⟨1, 2, 3⟩)]) ∧ ok (busy .shift 23 23 [(24, ⟨1, 2, 3⟩)]) ∧
    ok (busy .shift 24 23 [(24, ⟨1, 2, 3⟩)]) := by decide

theorem witness_LatchStepRetiresTheCommit :
    (busy .latch 24 0 []).inst.fault = 0 ∧ (busy .latch 24 0 []).inst.phase = .latch := by decide

theorem witness_ShiftProgressOfACommit :
    let s := bound 0x0500000000000000 [(24, ⟨1, 2, 3⟩)]
    InSpec s ∧ s.schedule = [] ∧ Ready s.inst (encode .commit) ∧ s.inst.bind.bound = true ∧
    s.inst.fb = some [(24, ⟨1, 2, 3⟩)] ∧ 599 < 24 * (s.inst.matrix.width * s.inst.matrix.height) ∧
    600 = 24 * (s.inst.matrix.width * s.inst.matrix.height) := by decide

theorem witness_CommitSendsTheWholeFrame :
    let s := sized 1 1 (bound 0x0500000000000000 [(0, ⟨0, 0, 255⟩)])
    InSpec s ∧ s.schedule = [] ∧ Ready s.inst (encode .commit) ∧ s.inst.bind.bound = true ∧
    s.inst.fb = some [(0, ⟨0, 0, 255⟩)] := by decide

/-- One step in each busy phase. -/
theorem witness_CommitIsNotDisturbed :
    (NoReset (busy .shift 0 0 []) ∧ (busy .shift 0 0 []).inst.phase = .shift ∧ ∃ t, step (busy .shift 0 0 []) = .next t) ∧
    (NoReset (busy .latch 24 0 []) ∧ (busy .latch 24 0 []).inst.phase ≠ .idle ∧
      ∃ t, step (busy .latch 24 0 []) = .next t) :=
  ⟨⟨by decide, rfl, _, rfl⟩, ⟨by decide, by decide, _, rfl⟩⟩

theorem witness_SerializerFrame :
    (∃ t, serializerStep (busy .shift 0 0 []) = .next t ∧ (busy .shift 0 0 []).inst.phase ≠ .latch) ∧
    (∃ t, serializerStep (busy .latch 24 0 []) = .next t) := ⟨⟨_, rfl, by decide⟩, ⟨_, rfl⟩⟩

theorem witness_BitPeriodHasItsTwoParts : Cfg.default.wf = true := by decide

theorem witness_FrameLastsAtLeast : Cfg.default.wf = true := by decide

theorem witness_NoLongLowInsideAFrame :
    Cfg.default.wf = true ∧
    (⟨.low, 850⟩ : Segment) ∈ lineTrace Cfg.default 0 ([true, false].map WireSym.bit) := by decide

theorem witness_LedsShowTheCommittedFrame :
    Cfg.default.toMatrixCfg.wf = true ∧ (chainView [.bit true, .latch]).pending = [] ∧
    24 < Cfg.default.width * Cfg.default.height := by decide

theorem witness_GlyphExpansionListsTheOnCells : glyphCfg.wf = true ∧ 9 < 10 ∧ 9 ≤ 9 := by decide

theorem witness_RenderWritesExactlyTheOnCells :
    let s := { bound 0 [(0, ⟨9, 9, 9⟩)] with platform := glyphCfg.toPlatformCfg }
    (cfgOf s.platform s.inst).wf = true ∧ s.inst.bind.bound = true ∧ s.inst.fb = some [(0, ⟨9, 9, 9⟩)] ∧
    Memory.wf [(0, ⟨9, 9, 9⟩)] = true ∧ 1 ≤ 9 ∧ (⟨2, 4⟩ : Cell) ∈ glyphCells s.platform 1 ∧
    (∀ p ∈ glyphCells s.platform 1, mapIndex s.inst.matrix p.x p.y ≠ 0) := by decide

theorem witness_GeomIsHardwired :
    State.reset.inst.matrix.wf = true ∧ (∃ t, step (bound 0x0200000000000000 []) = .next t) ∧
    7 ≤ (7#4).toNat ∧ 7 ≤ (15#4).toNat := ⟨by decide, ⟨_, rfl⟩, by decide, by decide⟩

theorem witness_ConfigurationAndProgramsAreFixed : ∃ t, step (bound 0x0300000018123456 []) = .next t := ⟨_, rfl⟩

/-- A bound focused instance and a bound peer. -/
theorem witness_BindingStaysUntilReset :
    NoReset (two 9) ∧ (two 9).inst.bind.bound = true ∧ (∃ p ∈ (two 9).peers, p.bind.bound = true) ∧
    ∃ t, step (two 9) = .next t := ⟨by decide, rfl, by decide, _, rfl⟩

/-- An INIT of the focused instance, and one of a peer, each of which changes BIND. -/
theorem witness_BindingStaysUntilReset_init :
    let s := fresh 0x0100000000000007
    let u := { State.reset with peers := [Inst.initial 1 Cfg.default.toMatrixCfg [0x0100000000000009]], schedule := [.peer 0 .host] }
    (NoReset s ∧ ∃ t, step s = .next t ∧ t.inst.bind ≠ s.inst.bind) ∧
    (NoReset u ∧ ∃ t p q, step u = .next t ∧ u.peers[0]? = some p ∧ t.peers[0]? = some q ∧ q.bind ≠ p.bind) :=
  ⟨⟨by decide, _, rfl, fun h => Bool.noConfusion (show true = false from congrArg BindReg.bound h)⟩,
    ⟨by decide, _, _, _, rfl, rfl, rfl, fun h => Bool.noConfusion (show true = false from congrArg BindReg.bound h)⟩⟩

/-- A faulted focused instance, and one beside a faulted peer. -/
theorem witness_FaultedInstanceIsFrozen :
    let faulted := { boundInst 0 [] with id := 1, bind := ⟨true, .primary, 1, 9⟩, fault := 0x04 }
    let s := raiseFault .illegal { two 9 with peers := [faulted], schedule := [.peer 0 .host] }
    NoReset s ∧ s.inst.fault ≠ 0 ∧ s.peers[0]? = some faulted ∧ faulted.fault ≠ 0 ∧ ∃ t, step s = .next t :=
  ⟨by decide, by decide, rfl, by decide, _, rfl⟩

theorem witness_PcMovesOnlyWhenACommandRetires :
    NoReset (bound 0x0200000000000000 []) ∧ ∃ t, step (bound 0x0200000000000000 []) = .next t := ⟨by decide, _, rfl⟩

theorem witness_WireLogOnlyGrows :
    NoReset (busy .latch 24 0 []) ∧ ∃ t, step (busy .latch 24 0 []) = .next t := ⟨by decide, _, rfl⟩

/-- A claim of a FREE slot and of a held one; a release of an environment's slot and of an instance's; an answer. -/
theorem witness_EnvironmentKeepsToItsOwnSlots :
    let put := fun e s => { s with schedule := [e] }
    InSpec (put (.envClaim .primary 3 5) (two 9)) ∧ claimOf (two 9) .primary 3 = some .free ∧
    claimOf (two 9) .primary 1 ≠ some .free ∧
    InSpec (put (.envRelease .secondary 0) (envHolds .secondary (two 9))) ∧
    claimOf (envHolds .secondary (two 9)) .secondary 0 = some (.held (.env 9)) ∧
    claimOf (two 9) .primary 1 = some (.held (.inst 1)) ∧
    InSpec (put (.envProgFits .primary false) (two 9)) := by decide

theorem witness_OtherInstancesAreNotSeenNorTouched : ∃ t, runActor .host (two 9) = .next t := ⟨_, rfl⟩

/-- A run in which a COMMIT is at its Latch and the serializer's event comes every time. -/
theorem witness_EveryCommitRetiresUnderWeakFairness :
    let r : Nat → State := fun n => if n = 0 then busy .latch 24 0 [] else latchStep (busy .latch 24 0 [])
    let ev : Nat → Event := fun _ => .own .serializer
    IsRun r ev ∧ WeaklyFair r ev ∧ (∀ n, ev n ≠ .reset) ∧
      ∃ i, (allInsts (r 0))[0]? = some i ∧ i.fault = 0 ∧ i.phase ≠ .idle := by
  refine ⟨?_, ?_, fun _ => Event.noConfusion, _, rfl, rfl, by decide⟩
  · intro n
    cases n <;> rfl
  · intro k n h
    cases k with
    | zero => exact ⟨n, Nat.le_refl n, rfl⟩
    | succ k =>
      obtain ⟨i, hi, -⟩ := h n (Nat.le_refl n)
      cases n <;> cases hi

theorem witness_PortReadsTheState :
    let i := (bound 0 [(24, ⟨1, 2, 3⟩)]).inst
    i.bind.bound = true ∧ i.fb = some [(24, ⟨1, 2, 3⟩)] ∧ 24 < i.matrix.width * i.matrix.height ∧
    State.reset.inst.bind.bound = false := by decide

/-- Two instances with matrices of different size: each maps cell (0, 1) through its own width (R225). -/
theorem test_own_geometry :
    let p := { boundInst 0x04000000010000FF [] with
      id := 1, bind := ⟨true, .primary, 1, 9⟩, matrix := { Cfg.default.toMatrixCfg with width := 3, height := 2 } }
    let s := { two 9 with peers := [p], schedule := [.peer 0 .host] }
    (readRegister s.inst 0x6, readRegister p 0x6) = (0x00050005, 0x00020003) ∧
    (match step s with
      | .next t => t.peers.map fun q => (q.fb, q.status)
      | _ => []) = [(some [(5, ⟨0, 0, 255⟩)], 0x00)] := by decide

/-! ### Witnesses of the invariants -/

theorem boundInst_frameBufferOk : FrameBufferOk (boundInst 0x0500000000000000 [(24, ⟨1, 2, 3⟩)]) := by
  intro m h
  cases h
  decide

theorem busy_registersOk : RegistersOk Cfg.default.toPlatformCfg (busy .shift 24 23 [(24, ⟨1, 2, 3⟩)]).inst where
  unbound h := by cases h
  bound _ := by decide
  shift _ := by decide
  noShift h := absurd rfl h
  busy _ := by decide
  status := by decide
  fault := by decide
  pc := by decide

theorem bound_claimsOk : ClaimsOk (bound 0x0500000000000000 []) where
  length u := by cases u <;> rfl
  names := by decide
  holds i hi _ := by
    cases List.mem_singleton.mp hi
    decide
  held u slot id h := by
    refine ⟨_, List.mem_singleton.mpr rfl, ?_⟩
    match u, slot with
    | .primary, 0 => cases h; exact ⟨rfl, rfl, rfl, rfl⟩
    | .primary, 1 => cases h
    | .primary, 2 => cases h
    | .primary, 3 => cases h
    | .primary, n + 4 => cases h
    | .secondary, 0 => cases h
    | .secondary, 1 => cases h
    | .secondary, 2 => cases h
    | .secondary, 3 => cases h
    | .secondary, n + 4 => cases h

theorem witness_StepKeepsFrameBufferCanonical :
    let s := bound 0x0500000000000000 [(24, ⟨1, 2, 3⟩)]
    (∀ i ∈ allInsts s, FrameBufferOk i) ∧ ∃ t, step s = .next t :=
  ⟨fun _ hi => by cases List.mem_singleton.mp hi; exact boundInst_frameBufferOk, _, rfl⟩

theorem witness_StepKeepsRegistersLegal :
    let s := busy .shift 24 23 [(24, ⟨1, 2, 3⟩)]
    (∀ i ∈ allInsts s, RegistersOk s.platform i) ∧ ∃ t, step s = .next t :=
  ⟨fun _ hi => by cases List.mem_singleton.mp hi; exact busy_registersOk, _, rfl⟩

theorem witness_StepKeepsClaimsConsistent :
    ClaimsOk (bound 0x0500000000000000 []) ∧ ∃ t, step (bound 0x0500000000000000 []) = .next t := ⟨bound_claimsOk, _, rfl⟩

theorem witness_SlotsAreHeldExclusively : ClaimsOk (bound 0x0500000000000000 []) := bound_claimsOk

theorem witness_StepNeverStopsInsideTheSpec :
    let s := busy .shift 24 23 [(24, ⟨1, 2, 3⟩)]
    InSpec s ∧ ∀ i ∈ allInsts s, RegistersOk s.platform i :=
  ⟨by decide, fun _ hi => by cases List.mem_singleton.mp hi; exact busy_registersOk⟩

/-- A run that is past its INIT. -/
theorem witness_OrderlyProgramsOnlyFaultAtInit :
    let s := bound 0x0500000000000000 []
    (∀ i ∈ allInsts s, Orderly i) ∧ ∃ t, step s = .next t :=
  ⟨fun _ hi => by cases List.mem_singleton.mp hi; decide, _, rfl⟩

end Sys2Proof.Tests
end

section
/-! PROOFS. The obligations about the platform as a whole: what no step changes, that no step inside the spec stops, which
launches are refused, and which steps are held. -/

namespace Sys2Proof.Machine

/-! ## What no step changes -/

/-- Replacing an entry by one with the same image leaves the images. -/
theorem map_set_same_image {α β : Type} (f : α → β) {l : List α} {k : Nat} {p q : α} (hk : l[k]? = some p)
    (hf : f q = f p) : (l.set k q).map f = l.map f := by
  obtain ⟨hlt, rfl⟩ := List.getElem?_eq_some_iff.1 hk
  rw [List.map_set, hf, ← List.getElem_map f (h := by simpa using hlt), List.set_getElem_self]

/-- Reset keeps every block's name, matrix and program. -/
theorem allInsts_resetPlatform (s : State) : allInsts (resetPlatform s) = (allInsts s).map resetInst := rfl

/-- Settles O45: a step is an agent's step, whose frame holds the fixed parts, an environment's event, or a reset. -/
theorem configurationAndProgramsAreFixed : Obligations.ConfigurationAndProgramsAreFixed := by
  intro s t h
  rcases step_kinds h with ⟨a, -, hr⟩ | ⟨k, a, p, t', -, hk, hr, rfl⟩ | ⟨-, hi, hp, hc⟩ | ⟨-, rfl⟩
  · obtain ⟨hc, hp, -, hid, hm, hprog⟩ := runActor_frame hr
    exact ⟨hc, by simp [allInsts, hp, hid, hm, hprog]⟩
  · obtain ⟨hc, -, -, hid, hm, hprog⟩ := runActor_frame hr
    refine ⟨hc, ?_⟩
    have hpeers := map_set_same_image (fun i : Inst => (i.id, i.matrix, i.prog)) (q := t'.inst) hk
      (by simp [hid, hm, hprog])
    simp only [allInsts, List.map_cons, hpeers]
  · exact ⟨hc, by simp only [allInsts, hi, hp]⟩
  · exact ⟨rfl, by rw [allInsts_resetPlatform, List.map_map]; rfl⟩

/-! ## No step inside the spec stops -/

/-- A cell of the matrix maps to an entry of its buffer (R140, R143). -/
theorem mapIndex_lt_ledCount {c : MatrixCfg} {x y : Nat} (h : coordInRange c x y = true) :
    mapIndex c x y < ledCount c := by
  obtain ⟨hx, hy⟩ : x < c.width ∧ y < c.height := by simpa [coordInRange] using h
  have hcol : (if y % 2 = 0 then x else c.width - 1 - x) < c.width := by split <;> omega
  calc mapIndex c x y < y * c.width + c.width := Nat.add_lt_add_left hcol _
    _ = (y + 1) * c.width := by ring
    _ ≤ c.height * c.width := Nat.mul_le_mul_right _ hy
    _ = ledCount c := Nat.mul_comm _ _

/-- A command behind the check for a binding goes on where its own part does on a bound block. -/
theorem whenBound_progress {s : State} {k : Out} (h : s.inst.bind.bound = true → ∃ t, k = .next t) :
    ∃ t, whenBound s k = .next t := by
  cases hb : s.inst.bind.bound with
  | true => rw [whenBound_bound hb]; exact h hb
  | false => exact ⟨_, whenBound_unbound hb k⟩

/-- INIT never stops (R110). -/
theorem execInit_progress (pin : Nat) (s : State) : ∃ t, execInit pin s = .next t := by
  unfold execInit
  split
  · exact ⟨_, rfl⟩
  · split
    · exact ⟨_, rfl⟩
    · split <;> exact ⟨_, rfl⟩

/-- No command stops on a block whose buffer exists where it is bound (R30). -/
theorem exec_progress {s : State} (hfb : s.inst.bind.bound = true → s.inst.fb.isSome = true) (i : Instr) :
    ∃ t, exec i s = .next t := by
  cases i with
  | init pin => exact execInit_progress pin s
  | clear =>
    refine whenBound_progress fun hb => ?_
    obtain ⟨m, hm⟩ := Option.isSome_iff_exists.1 (hfb hb)
    rw [fbClear_some hm]; exact ⟨_, rfl⟩
  | set index color =>
    refine whenBound_progress fun hb => ?_
    obtain ⟨m, hm⟩ := Option.isSome_iff_exists.1 (hfb hb)
    split
    · next hi => rw [fbWrite_some color hm (by simpa [indexInRange] using hi)]; exact ⟨_, rfl⟩
    · exact ⟨_, rfl⟩
  | setxy x y color =>
    refine whenBound_progress fun hb => ?_
    obtain ⟨m, hm⟩ := Option.isSome_iff_exists.1 (hfb hb)
    split
    · next hc => rw [fbWrite_some color hm (mapIndex_lt_ledCount hc)]; exact ⟨_, rfl⟩
    · exact ⟨_, rfl⟩
  | commit => exact whenBound_progress fun _ => ⟨_, rfl⟩

/-- The host's step of a block with legal registers never stops. -/
theorem hostStep_progress {c : PlatformCfg} {s : State} (h : RegistersOk c s.inst) : ∃ t, hostStep s = .next t := by
  unfold hostStep
  split
  · split
    · exact ⟨_, rfl⟩
    · split
      · exact ⟨_, rfl⟩
      · exact ⟨_, rfl⟩
      · split
        · exact ⟨_, rfl⟩
        · exact exec_progress (fun hb => (h.bound hb).1) _
  · exact ⟨_, rfl⟩

/-- A block with legal registers has its buffer while a commit is under way (R30, R37). -/
theorem RegistersOk.fb_of_busy {c : PlatformCfg} {i : Inst} (h : RegistersOk c i) (hp : i.phase ≠ .idle) :
    ∃ m, i.fb = some m := by
  cases hb : i.bind.bound with
  | true => exact Option.isSome_iff_exists.1 (h.bound hb).1
  | false =>
    obtain ⟨-, -, -, -, hidle, -⟩ := h.unbound hb
    exact absurd hidle hp

/-- The serializer's step of a block with legal registers never stops: in SHIFT its entry is there to be read. -/
theorem serializerStep_progress {c : PlatformCfg} {s : State} (h : RegistersOk c s.inst) :
    ∃ t, serializerStep s = .next t := by
  unfold serializerStep
  split
  · split
    · exact ⟨_, rfl⟩
    · next hp =>
      obtain ⟨m, hm⟩ := h.fb_of_busy (by simp [hp])
      rw [shiftStep, fbRead_some hm (h.shift hp).1]; exact ⟨_, rfl⟩
    · exact ⟨_, rfl⟩
  · exact ⟨_, rfl⟩

theorem runActor_progress {c : PlatformCfg} {s : State} (h : RegistersOk c s.inst) (a : Actor) :
    ∃ t, runActor a s = .next t := by
  cases a with
  | host => exact hostStep_progress h
  | serializer => exact serializerStep_progress h

/-- A peer's step does not stop where the peer's registers are legal. -/
theorem peerStep_progress {c : PlatformCfg} {s : State} (h : ∀ p ∈ s.peers, RegistersOk c p) (k : Nat) (a : Actor) :
    ∃ t, peerStep k a s = .next t := by
  cases hk : s.peers[k]? with
  | none => exact ⟨s, by simp [peerStep, hk]⟩
  | some p =>
    obtain ⟨t, ht⟩ := runActor_progress
      (s := { s with inst := p, peers := s.peers.set k s.inst }) (h p (List.mem_of_getElem? hk)) a
    exact ⟨_, peerStep_some hk ht⟩

/-- No event stops a platform whose blocks have legal registers. -/
theorem runEvent_progress {c : PlatformCfg} {s : State} (h : ∀ i ∈ allInsts s, RegistersOk c i) (e : Event) :
    ∃ t, runEvent e s = .next t := by
  cases e with
  | own a => exact runActor_progress (h s.inst List.mem_cons_self) a
  | peer k a => exact peerStep_progress (fun p hp => h p (List.mem_cons_of_mem _ hp)) k a
  | envClaim u slot claimer => exact ⟨_, rfl⟩
  | envRelease u slot => exact ⟨_, rfl⟩
  | envProgFits u fits => exact ⟨_, rfl⟩
  | reset => exact ⟨_, rfl⟩

/-- Settles O57: inside the spec a step is its next event, and no event stops on legal registers. -/
theorem stepNeverStopsInsideTheSpec : Obligations.StepNeverStopsInsideTheSpec := by
  intro s hspec hregs
  rw [step_inSpec hspec.1 hspec.2]
  exact runEvent_progress (s := { s with schedule := s.schedule.tail }) hregs (nextEvent s)

/-! ## Ill-formed configurations -/

/-- A WIRE_ORDER without a repeated channel is a permutation of `[R, G, B]` (R9): three different channels are all three. -/
theorem wireOrder_perm_of_isPermutation {o : WireOrder} (h : o.isPermutation = true) :
    [o.first, o.second, o.third].Perm [.red, .green, .blue] := by
  have hnodup : [o.first, o.second, o.third].Nodup := by simpa [WireOrder.isPermutation, and_assoc] using h
  have hall : [o.first, o.second, o.third] ⊆ [.red, .green, .blue] := fun ch _ => by cases ch <;> simp
  exact (List.subperm_of_subset hnodup hall).perm_of_length_le (by simp)

/-- Every on cell of every digit lies in the geometry of a configuration the check accepts (R9, R160). -/
theorem glyphCell_inside {c : Cfg} (h : c.glyphsInside = true) {d : Nat} {p : Cell}
    (hp : p ∈ glyphCells c.toPlatformCfg d) : p.x < c.width ∧ p.y < c.height := by
  have hcells : ∀ l ∈ c.glyph.toList, ∀ q ∈ l, q.x < c.width ∧ q.y < c.height := by
    simpa only [Cfg.glyphsInside, List.all_eq_true, Bool.and_eq_true, decide_eq_true_eq] using h
  rw [glyphCells, List.getD_eq_getElem?_getD] at hp
  cases hd : c.glyph.toList[d]? with
  | none => simp [hd] at hp
  | some l => exact hcells l (List.mem_of_getElem? hd) p (by simpa [hd] using hp)

/-- An ill-formed configuration refuses the step (R9). -/
theorem step_illFormed {s : State} (h : cfgsWf s = false) : step s = .refused .illFormedConfig := by
  simp [step, platformStep, h]

/-- Settles O3: a launch the check accepts meets every condition of R9, so one that breaks a condition is refused. -/
theorem illFormedConfigurationIsRefused : Obligations.IllFormedConfigurationIsRefused := by
  intro s hbroken
  refine step_illFormed (Bool.eq_false_iff.2 fun hwf => hbroken ?_)
  obtain ⟨hplat, hmat⟩ := cfgsWf_parts hwf
  obtain ⟨hslots, htimes⟩ := PlatformCfg.wf_iff.1 hplat
  refine ⟨hslots, htimes, fun i hi => ?_⟩
  obtain ⟨⟨hw, hw'⟩, ⟨hh, hh'⟩, hcount, hreset⟩ := MatrixCfg.wf_bounds (hmat i hi)
  obtain ⟨-, -, hglyph⟩ := Cfg.wf_iff.1 (cfgsWf_iff.1 hwf i hi)
  exact ⟨⟨hw, hw', hh, hh'⟩, hcount, hreset, wireOrder_perm_of_isPermutation (MatrixCfg.wf_wireOrder (hmat i hi)),
    fun d p _ hp => glyphCell_inside hglyph hp⟩

/-! ## Held steps -/

/-- A scheduled step of the focused block's agent that is not enabled uses up its event and changes nothing else. -/
theorem step_own_held {s : State} {a : Actor} {es : List Event} (hspec : InSpec s) (hs : s.schedule = .own a :: es)
    (h : actorEnabled a s.inst = false) : step s = .next { s with schedule := es } := by
  rw [step_inSpec hspec.1 hspec.2, scheduledStep_cons hs]
  exact runActor_held h

/-- With nothing scheduled and neither the focused block nor a peer's serializer enabled, a step changes nothing. -/
theorem step_unscheduled_held {s : State} (hspec : InSpec s) (hs : s.schedule = [])
    (hfocus : ∀ a, actorEnabled a s.inst = false) (hpeers : ∀ p ∈ s.peers, actorEnabled .serializer p = false) :
    step s = .next s := by
  have hfind : s.peers.findIdx? (actorEnabled .serializer) = none := List.findIdx?_eq_none_iff.2 hpeers
  have hnext : nextEvent s = .own (enabledActor s.inst) := by
    simp [nextEvent_nil hs, unscheduledEvent, hfocus, hfind]
  have htail : { s with schedule := s.schedule.tail } = s := by rw [hs, List.tail_nil, ← hs]
  rw [step_inSpec hspec.1 hspec.2, scheduledStep, hnext, htail]
  exact runActor_held (hfocus _)

theorem actorEnabled_host_eq_false {i : Inst} (h : Stuck i ∨ fetch i = none ∨ i.phase ≠ .idle) :
    actorEnabled .host i = false := by
  rw [Bool.eq_false_iff, ne_eq, actorEnabled_host_iff]
  rintro ⟨hf, hp, w, hw⟩
  rcases h with hstuck | hover | hbusy
  · exact hstuck hf
  · simp [hover] at hw
  · exact hbusy hp

theorem actorEnabled_serializer_eq_false {i : Inst} (h : Stuck i ∨ i.phase = .idle) :
    actorEnabled .serializer i = false := by
  rw [Bool.eq_false_iff, ne_eq, actorEnabled_serializer_iff]
  rintro ⟨hf, hp⟩
  rcases h with hstuck | hidle
  · exact hstuck hf
  · exact hp hidle

/-- No agent of a block that is stuck or has ended well is enabled (R214, R244). -/
theorem actorEnabled_stopped {i : Inst} (h : Stuck i ∨ EndedWell i) (a : Actor) : actorEnabled a i = false := by
  rcases h with hstuck | ⟨hpc, hp, -⟩
  · exact actorEnabled_stuck hstuck a
  · exact actorEnabled_over hp (by simp [fetch, hpc]) a

/-- Settles O14: in each of the listed cases the agent that would move is not enabled. -/
theorem heldStepChangesNothing : Obligations.HeldStepChangesNothing := by
  intro s es hspec
  refine ⟨fun hs h => ?_, fun hs h => ?_, fun hs h hpeers => ?_⟩
  · exact step_own_held hspec hs (actorEnabled_host_eq_false h)
  · exact step_own_held hspec hs (actorEnabled_serializer_eq_false h)
  · exact step_unscheduled_held hspec hs (actorEnabled_stopped h)
      fun p hp => actorEnabled_serializer_eq_false (hpeers p hp)

end Sys2Proof.Machine
end

section
/-! PROOFS. The obligations about the state and its invariants: the reset state and the reset event, the registers the port
shows, what a step can do to BIND, pc, STATUS and the wire log, and the three invariants every step keeps. -/

namespace Sys2Proof.Machine

/-! ## What one agent can do -/

/-- What a word that decodes to a command is, opcode by opcode (R79). -/
theorem decode_command_cases {w : Word} {i : Instr} (h : decode w = .command i) :
    (opField w = 0x01 ∧ bits w 8 48 = 0 ∧ i = .init (bits w 0 8).toNat) ∨
    (opField w = 0x02 ∧ bits w 0 56 = 0 ∧ i = .clear) ∨
    (opField w = 0x03 ∧ i = .set (bits w 24 32).toNat (colorField w)) ∨
    (opField w = 0x04 ∧ i = .setxy (bits w 40 16).toNat (bits w 24 16).toNat (colorField w)) ∨
    (opField w = 0x05 ∧ bits w 0 56 = 0 ∧ i = .commit) := by
  simp only [decode, decodeInit, decodeClear, decodeSet, decodeSetxy, decodeCommit] at h
  split_ifs at h <;> cases h <;> simp_all

/-- A word that decodes to COMMIT is COMMIT's word (R72, R78). -/
theorem eq_encode_of_decode_commit {w : Word} (h : decode w = .command .commit) : w = encode .commit := by
  obtain ⟨hop, hzero⟩ : opField w = 0x05 ∧ bits w 0 56 = 0 := by simpa using decode_command_cases h
  have hop' : w.toNat / 2 ^ 56 = 5 := by rw [← opField_toNat, hop]; rfl
  have hzero' : w.toNat / 2 ^ 0 % 2 ^ 56 = 0 := by rw [← bits_toNat, hzero]; rfl
  have henc : (encode .commit).toNat = 5 * 2 ^ 56 := rfl
  exact BitVec.eq_of_toNat_eq (by omega)

/-- The pin of an INIT word fits its field (R73). -/
theorem pin_lt_of_decode_init {w : Word} {pin : Nat} (h : decode w = .command (.init pin)) : pin < 2 ^ 8 := by
  obtain ⟨-, -, rfl⟩ : opField w = 0x01 ∧ bits w 8 48 = 0 ∧ pin = (bits w 0 8).toNat := by
    simpa using decode_command_cases h
  exact (bits w 0 8).isLt

/-- What one step of an agent of the focused block can be, one constructor for each way it can end, with the facts the
invariants turn on (R100, R101, R171, R174, R175, R214). -/
inductive AgentStep (s : State) : Actor → State → Prop
  | held (a : Actor) : AgentStep s a s
  | fault (f : FaultCode) : s.inst.phase = .idle → AgentStep s .host (raiseFault f s)
  | report (r : ResultCode) (w : Word) : fetch s.inst = some w → s.inst.phase = .idle → s.inst.bind.bound = true →
      (r = .errIndex ∨ r = .errCoord) → AgentStep s .host (retire r s)
  | write (m m' : Memory) (w : Word) : fetch s.inst = some w → s.inst.phase = .idle → s.inst.bind.bound = true →
      s.inst.fb = some m → (m' = [] ∨ ∃ a c, a < ledCount s.inst.matrix ∧ m' = Memory.write m a c) →
      AgentStep s .host (retire .ok (setFb m' s))
  | start : s.inst.fault = 0 → fetch s.inst = some (encode .commit) → s.inst.bind.bound = true →
      AgentStep s .host (setSerializer .shift 0 0 s)
  | bind (w : Word) (pin : Nat) (u : UnitId) : s.inst.fault = 0 → s.inst.phase = .idle → fetch s.inst = some w →
      decode w = .command (.init pin) → s.inst.bind.bound = false → pinCapable s.platform pin = true →
      usable s u = true → AgentStep s .host (countDraw (bindSlot u (chosenSlot s u) pin s))
  | nextBit (b : Bool) : s.inst.phase = .shift → s.inst.bitptr.toNat < 23 →
      AgentStep s .serializer (setSerializer .shift s.inst.ledptr (s.inst.bitptr + 1) (emit (.bit b) s))
  | nextLed (b : Bool) : s.inst.phase = .shift → s.inst.ledptr.toNat < ledCount s.inst.matrix - 1 →
      AgentStep s .serializer (setSerializer .shift (s.inst.ledptr + 1) 0 (emit (.bit b) s))
  | lastBit (b : Bool) : s.inst.phase = .shift →
      AgentStep s .serializer (setSerializer .latch s.inst.ledptr 0 (emit (.bit b) s))
  | latch : s.inst.phase = .latch → AgentStep s .serializer (latchStep s)

/-- A host's step is one of those (R100). -/
theorem agentStep_of_hostStep {s t : State} (h : hostStep s = .next t) : AgentStep s .host t := by
  rcases hostStep_next h with rfl | ⟨hf, hp, w, hw, ⟨why, -, rfl⟩ | ⟨i, hd, h⟩⟩
  · exact .held _
  · exact .fault _ hp
  · rcases exec_next h with ⟨f, rfl, -⟩ | ⟨hb, -, r, hr, rfl⟩ | ⟨hb, -, m, m', hm, rfl, hm'⟩ | ⟨rfl, hb, rfl⟩ |
      ⟨pin, u, rfl, hb, hc, hu, rfl⟩
    · exact .fault f hp
    · exact .report r w hw hp hb hr
    · exact .write m m' w hw hp hb hm hm'
    · exact .start hf (eq_encode_of_decode_commit hd ▸ hw) hb
    · exact .bind w pin u hf hp hw hd hb hc (pickUnit_usable hu)

/-- A serializer's step is one of those (R172). -/
theorem agentStep_of_serializerStep {s t : State} (h : serializerStep s = .next t) : AgentStep s .serializer t := by
  rcases serializerStep_next h with rfl | ⟨-, hp, h⟩ | ⟨-, hp, rfl⟩
  · exact .held _
  · obtain ⟨m, -, -, rfl⟩ := shiftStep_next h
    rcases advance_cases (ledCount s.inst.matrix) s.inst.ledptr s.inst.bitptr _ with
      ⟨hj, h⟩ | ⟨-, hk, h⟩ | ⟨-, -, h⟩ <;> rw [h]
    · exact .nextBit _ hp hj
    · exact .nextLed _ hp hk
    · exact .lastBit _ hp
  · exact .latch hp

/-- Every agent's step that answers a next state is one of those. -/
theorem agentStep_of_runActor {a : Actor} {s t : State} (h : runActor a s = .next t) : AgentStep s a t := by
  cases a with
  | host => exact agentStep_of_hostStep h
  | serializer => exact agentStep_of_serializerStep h

/-- An agent's step leaves BIND and both units, or is the host's INIT on an unbound block (R24, R101). -/
theorem AgentStep.bind_cases {a : Actor} {s t : State} (h : AgentStep s a t) :
    (t.inst.bind = s.inst.bind ∧ ∀ u, unitOf t u = unitOf s u) ∨
    (a = .host ∧ s.inst.fault = 0 ∧ s.inst.phase = .idle ∧ s.inst.bind.bound = false ∧
      ∃ w pin u, fetch s.inst = some w ∧ decode w = .command (.init pin) ∧ usable s u = true ∧
        t = countDraw (bindSlot u (chosenSlot s u) pin s)) := by
  cases h with
  | bind w pin u hf hp hw hd hb _ hu => exact .inr ⟨rfl, hf, hp, hb, w, pin, u, hw, hd, hu, rfl⟩
  | _ => exact .inl ⟨rfl, fun u => by cases u <;> rfl⟩

/-- pc and STATUS stay, or the command at pc retires (R22, R25). -/
theorem AgentStep.pc_cases {a : Actor} {s t : State} (h : AgentStep s a t) :
    (t.inst.pc = s.inst.pc ∧ t.inst.status = s.inst.status) ∨
    (t.inst.pc = s.inst.pc + 1 ∧ (t.inst.status = 0x00 ∨ t.inst.status = 0x01 ∨ t.inst.status = 0x02) ∧
      t.inst.fault = s.inst.fault) := by
  cases h with
  | report r w _ _ _ hr =>
    refine .inr ⟨rfl, ?_, rfl⟩
    rcases hr with rfl | rfl
    · exact .inr (.inr rfl)
    · exact .inr (.inl rfl)
  | write | latch => exact .inr ⟨rfl, .inl rfl, rfl⟩
  | bind => exact .inr (by simp [bindSlot_inst])
  | _ => exact .inl ⟨rfl, rfl⟩

/-- The wire log stays, or takes one symbol of a busy serializer: the Latch in LATCH, a bit in SHIFT (R33, R174, R175). -/
theorem AgentStep.wire_cases {a : Actor} {s t : State} (h : AgentStep s a t) :
    t.inst.wire = s.inst.wire ∨
    (s.inst.phase ≠ .idle ∧ ∃ sym, t.inst.wire = s.inst.wire ++ [sym] ∧ (sym = .latch ↔ s.inst.phase = .latch)) := by
  cases h with
  | nextBit b hp | nextLed b hp | lastBit b hp => exact .inr ⟨by simp [hp], .bit b, rfl, by simp [hp]⟩
  | latch hp => exact .inr ⟨by simp [hp], .latch, rfl, by simp [hp]⟩
  | bind => exact .inl (by simp [bindSlot_inst])
  | _ => exact .inl rfl

/-! ## What one step of the platform does to one block -/

/-- A step that is no reset leaves the focused block, or is a step of one of its agents. -/
theorem step_focus_cases {s t : State} (hn : NoReset s) (h : step s = .next t) :
    t.inst = s.inst ∨ ∃ a, nextEvent s = .own a ∧ AgentStep { s with schedule := s.schedule.tail } a t := by
  rcases step_kinds h with ⟨a, he, hr⟩ | ⟨k, a, p, t', -, -, -, rfl⟩ | ⟨-, hi, -⟩ | ⟨he, -⟩
  · exact .inr ⟨a, he, agentStep_of_runActor hr⟩
  · exact .inl rfl
  · exact .inl hi
  · exact absurd he hn

/-- A step that is no reset leaves a further block where it is, or is a step of one of its agents. -/
theorem step_peer_cases {s t : State} {j : Nat} {p : Inst} (hn : NoReset s) (h : step s = .next t)
    (hj : s.peers[j]? = some p) :
    t.peers[j]? = some p ∨
    ∃ a t', nextEvent s = .peer j a ∧ t.peers[j]? = some t'.inst ∧ t'.inst.id = p.id ∧
      AgentStep { s with schedule := s.schedule.tail, inst := p, peers := s.peers.set j s.inst } a t' := by
  rcases step_kinds h with ⟨a, -, hr⟩ | ⟨k, a, q, t', he, hk, hr, rfl⟩ | ⟨-, -, hp, -⟩ | ⟨he, -⟩
  · obtain ⟨-, hp, -⟩ := runActor_frame hr
    exact .inl (by rw [hp]; exact hj)
  · by_cases hjk : k = j
    · subst hjk
      obtain rfl : q = p := Option.some.inj (hk.symm.trans hj)
      obtain ⟨-, -, -, hid, -⟩ := runActor_frame hr
      exact .inr ⟨a, t', he, List.getElem?_set_self (List.getElem?_eq_some_iff.1 hj).1, hid, agentStep_of_runActor hr⟩
    · exact .inl ((List.getElem?_set_ne hjk).trans hj)
  · exact .inl (by rw [hp]; exact hj)
  · exact absurd he hn

/-- Settles O48: a step leaves the focused block or is a step of its agents, which moves pc with a result only. -/
theorem pcMovesOnlyWhenACommandRetires : Obligations.PcMovesOnlyWhenACommandRetires := by
  intro s t hn h
  rcases step_focus_cases hn h with hi | ⟨a, -, ha⟩
  · exact .inl (by simp [hi])
  · exact ha.pc_cases

/-- Settles O49: a step leaves the focused block or is a step of its agents, of which the serializer alone emits. -/
theorem wireLogOnlyGrows : Obligations.WireLogOnlyGrows := by
  intro s t hn h
  rcases step_focus_cases hn h with hi | ⟨a, -, ha⟩
  · exact .inl (by rw [hi])
  · exact ha.wire_cases

/-- A step that is no reset leaves BIND of a further block, or is its host's step and the block was unbound (R24). -/
theorem step_peer_bind {s t : State} {j : Nat} {p : Inst} (hn : NoReset s) (h : step s = .next t)
    (hj : s.peers[j]? = some p) :
    ∃ q, t.peers[j]? = some q ∧ q.id = p.id ∧
      (q.bind = p.bind ∨ (nextEvent s = .peer j .host ∧ p.bind.bound = false)) := by
  rcases step_peer_cases hn h hj with hq | ⟨a, t', he, hq, hid, ha⟩
  · exact ⟨p, hq, rfl, .inl rfl⟩
  · refine ⟨t'.inst, hq, hid, ?_⟩
    rcases ha.bind_cases with ⟨hb, -⟩ | ⟨rfl, -, -, hb, -⟩
    · exact .inl hb
    · exact .inr ⟨he, hb⟩

/-- A step that is no reset leaves BIND of the focused block, or is its host's INIT on the unbound block (R24). -/
theorem step_focus_bind {s t : State} (hn : NoReset s) (h : step s = .next t) :
    t.inst.bind = s.inst.bind ∨
    (s.inst.bind.bound = false ∧ nextEvent s = .own .host ∧ s.inst.fault = 0 ∧ s.inst.phase = .idle ∧
      ∃ w pin, fetch s.inst = some w ∧ decode w = .command (.init pin)) := by
  rcases step_focus_cases hn h with hi | ⟨a, he, ha⟩
  · exact .inl (by rw [hi])
  · rcases ha.bind_cases with ⟨hb, -⟩ | ⟨rfl, hf, hp, hb, w, pin, -, hw, hd, -⟩
    · exact .inl hb
    · exact .inr ⟨hb, he, hf, hp, w, pin, hw, hd⟩

/-- Settles O46: BIND of a block changes only in its own host's INIT, which finds it unbound. -/
theorem bindingStaysUntilReset : Obligations.BindingStaysUntilReset := by
  intro s t hn h
  refine ⟨fun hb => ?_, fun p hp hb => ?_, fun hne => ?_, fun k p q hk hq hne => ?_⟩
  · rcases step_focus_bind hn h with heq | ⟨hunbound, -⟩
    · exact heq
    · simp [hb] at hunbound
  · obtain ⟨j, hj⟩ := List.mem_iff_getElem?.1 hp
    obtain ⟨q, hq, hid, heq | ⟨-, hunbound⟩⟩ := step_peer_bind hn h hj
    · exact ⟨q, List.mem_of_getElem? hq, hid, heq⟩
    · simp [hb] at hunbound
  · rcases step_focus_bind hn h with heq | ⟨-, hinit⟩
    · exact absurd heq hne
    · exact hinit
  · obtain ⟨q', hq', -, heq | ⟨he, -⟩⟩ := step_peer_bind hn h hk
    · obtain rfl : q' = q := Option.some.inj (hq'.symm.trans hq)
      exact absurd heq hne
    · exact he

/-! ## Every step keeps the frame buffer canonical -/

/-- After reset there is no buffer (R37). -/
theorem frameBufferOk_initial (id : Nat) (c : MatrixCfg) (prog : List Word) : FrameBufferOk (Inst.initial id c prog) :=
  nofun

/-- A block whose buffer is `m` has a canonical one where `m` is canonical and inside its matrix. -/
theorem frameBufferOk_of_some {i : Inst} {m : Memory} (h : i.fb = some m) (hwf : Memory.wf m = true)
    (hbelow : Memory.below (ledCount i.matrix) m = true) : FrameBufferOk i := by
  intro m' hm'
  obtain rfl : m = m' := Option.some.inj (h.symm.trans hm')
  exact ⟨hwf, hbelow⟩

/-- An agent writes the buffer empty or one entry of it, and both keep the canonical form (R106, R121, R124). -/
theorem AgentStep.frameBufferOk {a : Actor} {s t : State} (h : AgentStep s a t) (hs : FrameBufferOk s.inst) :
    FrameBufferOk t.inst := by
  cases h with
  | write m m' w _ _ _ hm hm' =>
    rcases hm' with rfl | ⟨k, c, hk, rfl⟩
    · exact frameBufferOk_of_some rfl Memory.nil_wf rfl
    · obtain ⟨hwf, hbelow⟩ := hs m hm
      exact frameBufferOk_of_some rfl (Memory.write_wf hwf k c) (Memory.write_below hbelow hk c)
  | bind w pin u => exact frameBufferOk_of_some rfl Memory.nil_wf rfl
  | _ => exact hs

/-- Settles O53: reset leaves no buffer and every agent's step keeps the canonical form. -/
theorem stepKeepsFrameBufferCanonical : Obligations.StepKeepsFrameBufferCanonical := by
  intro s t hs h
  exact step_keeps_everyInst (P := fun _ i => FrameBufferOk i) (fun _ _ _ => frameBufferOk_initial _ _ _)
    (fun _ _ _ _ _ hi hr => (agentStep_of_runActor hr).frameBufferOk hi) hs h

/-! ## Every step keeps the registers legal -/

/-- The registers after reset are legal (R37). -/
theorem registersOk_initial (c : PlatformCfg) (id : Nat) (m : MatrixCfg) (prog : List Word) :
    RegistersOk c (Inst.initial id m prog) where
  unbound _ := ⟨rfl, rfl, rfl, rfl, rfl, rfl, rfl⟩
  bound := nofun
  shift := nofun
  noShift _ := rfl
  busy h := absurd rfl h
  status := Nat.zero_le _
  fault := Nat.zero_le _
  pc := Nat.zero_le _

/-- A block with legal registers is bound while a commit is under way. -/
theorem RegistersOk.bound_of_busy {c : PlatformCfg} {i : Inst} (h : RegistersOk c i) (hp : i.phase ≠ .idle) :
    i.bind.bound = true := by
  by_contra hb
  obtain ⟨-, -, -, -, hidle, -⟩ := h.unbound (Bool.eq_false_iff.2 hb)
  exact hp hidle

/-- Where a word is fetched, pc may go on by 1 (R22). -/
theorem pc_lt_of_fetch {i : Inst} {w : Word} (h : fetch i = some w) : i.pc < i.prog.length :=
  (List.getElem?_eq_some_iff.1 h).1

theorem ResultCode.code_toNat_le {r : ResultCode} (h : r ≠ .errDigit) : r.code.toNat ≤ 2 := by
  cases r with
  | errDigit => exact absurd rfl h
  | ok | errCoord | errIndex => decide

theorem FaultCode.code_toNat_le (f : FaultCode) : f.code.toNat ≤ 5 := by cases f <;> decide

/-- A well-formed matrix has an LED (R9). -/
theorem ledCount_pos {c : MatrixCfg} (h : c.wf = true) : 0 < ledCount c := by
  obtain ⟨⟨hw, -⟩, ⟨hh, -⟩, -⟩ := MatrixCfg.wf_bounds h
  exact Nat.mul_pos hw hh

/-- A slot number of a well-formed platform fits BIND.SLOT (R9, R24). -/
theorem slot_toNat {c : PlatformCfg} (h : c.wf = true) {n : Nat} (hn : n < c.slots) :
    (BitVec.ofNat 8 n).toNat = n := by
  obtain ⟨⟨-, hslots⟩, -⟩ := PlatformCfg.wf_iff.1 h
  rw [BitVec.toNat_ofNat]; omega

/-- A fault raised on an idle block leaves its registers legal (R214). -/
theorem RegistersOk.after_raiseFault {c : PlatformCfg} {s : State} (h : RegistersOk c s.inst) (hp : s.inst.phase = .idle)
    (f : FaultCode) : RegistersOk c (raiseFault f s).inst :=
  { h with busy := fun hbusy => absurd hp hbusy, fault := f.code_toNat_le }

/-- A command that retires on a bound idle block leaves its registers legal (R22, R211). -/
theorem RegistersOk.after_retire {c : PlatformCfg} {s : State} {w : Word} (h : RegistersOk c s.inst)
    (hp : s.inst.phase = .idle) (hw : fetch s.inst = some w) (hb : s.inst.bind.bound = true) {r : ResultCode}
    (hr : r ≠ .errDigit) : RegistersOk c (retire r s).inst :=
  { h with
    unbound := fun hu => absurd hb (Bool.eq_false_iff.1 hu)
    busy := fun hbusy => absurd hp hbusy
    status := ResultCode.code_toNat_le hr
    pc := pc_lt_of_fetch hw }

/-- A buffer written on a bound block leaves its registers legal. -/
theorem RegistersOk.after_setFb {c : PlatformCfg} {s : State} (h : RegistersOk c s.inst) (hb : s.inst.bind.bound = true)
    (m : Memory) : RegistersOk c (setFb m s).inst :=
  { h with
    unbound := fun hu => absurd hb (Bool.eq_false_iff.1 hu)
    bound := fun _ => ⟨rfl, (h.bound hb).2⟩ }

/-- PHASE and the pointers of a bound, unfaulted block at a COMMIT may take any values that fit each other (R27, R28). -/
theorem RegistersOk.after_setSerializer {c : PlatformCfg} {s : State} (h : RegistersOk c s.inst)
    (hb : s.inst.bind.bound = true) (hbusy : s.inst.fault = 0 ∧ fetch s.inst = some (encode .commit)) {p : Phase}
    {k : BitVec 32} {j : BitVec 5} (hshift : p = .shift → k.toNat < ledCount s.inst.matrix ∧ j.toNat < 24)
    (hrest : p ≠ .shift → j = 0) : RegistersOk c (setSerializer p k j s).inst :=
  { h with
    unbound := fun hu => absurd hb (Bool.eq_false_iff.1 hu)
    shift := hshift
    noShift := hrest
    busy := fun _ => hbusy }

/-- A busy block whose serializer sends a symbol keeps legal registers where the new pointers fit PHASE (R174, R175). -/
theorem RegistersOk.after_symbol {c : PlatformCfg} {s : State} (h : RegistersOk c s.inst) (hp : s.inst.phase ≠ .idle)
    (sym : WireSym) {p : Phase} {k : BitVec 32} {j : BitVec 5}
    (hshift : p = .shift → k.toNat < ledCount s.inst.matrix ∧ j.toNat < 24) (hrest : p ≠ .shift → j = 0) :
    RegistersOk c (setSerializer p k j (emit sym s)).inst := by
  have hb := h.bound_of_busy hp
  have hemit : RegistersOk c (emit sym s).inst := { h with unbound := fun hu => absurd hb (Bool.eq_false_iff.1 hu) }
  exact hemit.after_setSerializer hb (h.busy hp) hshift hrest

/-- The registers INIT leaves on an unbound block are legal: the slot is one of the unit's, the pin a capable one (R101). -/
theorem RegistersOk.after_bindSlot {s : State} {w : Word} {pin n : Nat} (h : RegistersOk s.platform s.inst)
    (hplat : s.platform.wf = true) (hw : fetch s.inst = some w) (hd : decode w = .command (.init pin))
    (hpin : pinCapable s.platform pin = true) (hn : n < s.platform.slots) (u : UnitId) :
    RegistersOk s.platform (bindSlot u n pin s).inst := by
  have hslot : (BitVec.ofNat 8 n).toNat < s.platform.slots := by rw [slot_toNat hplat hn]; exact hn
  have hpin' : (BitVec.ofNat 8 pin).toNat = pin := Nat.mod_eq_of_lt (pin_lt_of_decode_init hd)
  rw [bindSlot_inst]
  exact
    { h with
      unbound := nofun
      bound := fun _ => ⟨rfl, rfl, hslot, hpin'.symm ▸ hpin⟩
      shift := nofun
      noShift := fun _ => rfl
      busy := fun hbusy => absurd rfl hbusy
      status := Nat.zero_le _
      pc := pc_lt_of_fetch hw }

/-- Every agent's step keeps the registers of its block legal. -/
theorem AgentStep.registersOk {a : Actor} {s t : State} (h : AgentStep s a t) (hplat : s.platform.wf = true)
    (hmat : s.inst.matrix.wf = true) (hs : RegistersOk s.platform s.inst) : RegistersOk s.platform t.inst := by
  cases h with
  | held => exact hs
  | fault f hp => exact hs.after_raiseFault hp f
  | report r w hw hp hb hr => exact hs.after_retire hp hw hb (by rcases hr with rfl | rfl <;> simp)
  | write m m' w hw hp hb => exact (hs.after_setFb hb m').after_retire hp hw hb (by simp)
  | start hf hw hb => exact hs.after_setSerializer hb ⟨hf, hw⟩ (fun _ => ⟨ledCount_pos hmat, by decide⟩) (fun _ => rfl)
  | bind w pin u hf hp hw hd hb hpin hu => exact hs.after_bindSlot hplat hw hd hpin (chosenSlot_free hu).1 u
  | nextBit b hp hj =>
    refine hs.after_symbol (by simp [hp]) _ (fun _ => ⟨(hs.shift hp).1, ?_⟩) (fun h => absurd rfl h)
    rw [BitVec.toNat_add]; exact lt_of_le_of_lt (Nat.mod_le _ _) (Nat.succ_lt_succ hj)
  | nextLed b hp hk =>
    refine hs.after_symbol (by simp [hp]) _ (fun _ => ⟨?_, by decide⟩) (fun _ => rfl)
    rw [BitVec.toNat_add]; exact lt_of_le_of_lt (Nat.mod_le _ _) (Nat.add_lt_of_lt_sub hk)
  | lastBit b hp => exact hs.after_symbol (by simp [hp]) _ nofun (fun _ => rfl)
  | latch hp =>
    have hp' : s.inst.phase ≠ .idle := by simp [hp]
    have hidle := hs.after_symbol hp' .latch (p := .idle) (k := s.inst.ledptr) nofun (fun _ => hs.noShift (by simp [hp]))
    exact hidle.after_retire rfl (hs.busy hp').2 (hs.bound_of_busy hp') (by simp)

/-- Settles O54: the registers after reset are legal and every agent's step keeps them so. -/
theorem stepKeepsRegistersLegal : Obligations.StepKeepsRegistersLegal := by
  intro s t hs h
  exact step_keeps_everyInst (P := RegistersOk) (fun _ _ _ => registersOk_initial _ _ _ _)
    (fun _ _ _ hplat hmat hi hr => (agentStep_of_runActor hr).registersOk hplat hmat hi) hs h

/-! ## Every step keeps claim table and bindings in agreement -/

/-- What the claim table knows of a block: its name and its binding (R35). -/
def bindingOf (i : Inst) : Nat × BindReg := (i.id, i.bind)

/-- Agreement depends on the number of slots, the slots, the loaded programs and the names and bindings, in any order. -/
theorem ClaimsOk.congr {s t : State} (h : ClaimsOk s) (hplat : t.platform = s.platform)
    (hslots : ∀ u, (unitOf t u).slots = (unitOf s u).slots)
    (hprog : ∀ u, (unitOf t u).programLoaded = (unitOf s u).programLoaded)
    (hinsts : ((allInsts t).map bindingOf).Perm ((allInsts s).map bindingOf)) : ClaimsOk t where
  length u := by rw [hslots, hplat]; exact h.length u
  names := by
    have hids := hinsts.map Prod.fst
    rw [List.map_map, List.map_map] at hids
    exact hids.nodup_iff.2 h.names
  holds i hi hb := by
    obtain ⟨j, hj, hji⟩ := List.mem_map.1 (hinsts.subset (List.mem_map_of_mem hi))
    obtain ⟨hid, hbind⟩ := Prod.mk.inj hji
    rw [hslots, hprog, ← hid, ← hbind]
    exact h.holds j hj (hbind ▸ hb)
  held u slot id hc := by
    rw [claimOf, hslots] at hc
    obtain ⟨i, hi, rfl, hrest⟩ := h.held u slot id hc
    obtain ⟨j, hj, hji⟩ := List.mem_map.1 (hinsts.symm.subset (List.mem_map_of_mem hi))
    obtain ⟨hid, hbind⟩ := Prod.mk.inj hji
    exact ⟨j, hj, hid, hbind ▸ hrest⟩

/-- Changing the focus permutes the blocks (R225). -/
theorem allInsts_swapPeer_perm (k : Nat) (s : State) : (allInsts (swapPeer k s)).Perm (allInsts s) := by
  unfold swapPeer
  split
  · exact .refl _
  · next p hk =>
    obtain ⟨hlt, rfl⟩ := List.getElem?_eq_some_iff.1 hk
    calc
      List.Perm (s.peers[k] :: s.peers.set k s.inst) (s.peers[k] :: s.inst :: s.peers.eraseIdx k) :=
        (List.set_perm_cons_eraseIdx hlt s.inst).cons _
      List.Perm _ (s.inst :: s.peers[k] :: s.peers.eraseIdx k) := .swap _ _ _
      List.Perm _ (s.inst :: s.peers) := (List.getElem_cons_eraseIdx_perm hlt).cons _

/-- The focus has no part in the agreement. -/
theorem ClaimsOk.after_swapPeer {s : State} (h : ClaimsOk s) (k : Nat) : ClaimsOk (swapPeer k s) := by
  have hunits : ∀ u, unitOf (swapPeer k s) u = unitOf s u := by
    unfold swapPeer; intro u; split <;> cases u <;> rfl
  refine h.congr ?_ (fun u => by rw [hunits]) (fun u => by rw [hunits]) ((allInsts_swapPeer_perm k s).map _)
  unfold swapPeer; split <;> rfl

/-- A slot no block holds is not the one of a bound block. -/
theorem ClaimsOk.slot_ne {s : State} (h : ClaimsOk s) {i : Inst} (hi : i ∈ allInsts s) (hb : i.bind.bound = true)
    {u : UnitId} {n : Nat} (hc : ∀ id, claimOf s u n ≠ some (.held (.inst id))) :
    i.bind.unit ≠ u ∨ i.bind.slot.toNat ≠ n := by
  refine not_and_or.1 fun hsame => ?_
  obtain ⟨rfl, rfl⟩ := hsame
  exact hc i.id (by simp [claimOf, (h.holds i hi hb).1])

/-- Replacing one slot leaves the other claim-table entries. -/
theorem claimOf_setSlot_other {u w : UnitId} {n k : Nat} (h : w ≠ u ∨ k ≠ n) (v : Slot) (s : State) :
    claimOf (setSlot u n v s) w k = claimOf s w k := by
  rw [claimOf, setSlot_getElem_other h, claimOf]

/-- The claim-table entry of a replaced slot is the new one's. -/
theorem claimOf_setSlot_same {u : UnitId} {n : Nat} {s : State} {v : Slot} {c : Claim}
    (h : claimOf (setSlot u n v s) u n = some c) : v.claim = c := by
  have hn : n < (unitOf s u).slots.length := by simpa [setSlot_length] using claimOf_lt h
  simpa [claimOf, setSlot_getElem_same hn] using h

/-- A slot no block holds may be given to or taken from the environment (R226). -/
theorem ClaimsOk.after_setSlot {s : State} (h : ClaimsOk s) {u : UnitId} {n : Nat} {v : Slot}
    (hold : ∀ id, claimOf s u n ≠ some (.held (.inst id))) (hnew : ∀ id, v.claim ≠ .held (.inst id)) :
    ClaimsOk (setSlot u n v s) where
  length w := by rw [setSlot_length, setSlot_platform]; exact h.length w
  names := by simpa [allInsts] using h.names
  holds i hi hb := by
    have hi : i ∈ allInsts s := by simpa [allInsts] using hi
    rw [setSlot_getElem_other (h.slot_ne hi hb hold), setSlot_programLoaded]
    exact h.holds i hi hb
  held w k id hc := by
    by_cases hwk : w = u ∧ k = n
    · obtain ⟨rfl, rfl⟩ := hwk
      exact absurd (claimOf_setSlot_same hc) (hnew id)
    · rw [claimOf_setSlot_other (not_and_or.1 hwk)] at hc
      simpa [allInsts] using h.held w k id hc

/-- INIT on an unbound block claims a FREE slot for it and loads the program: the agreement stays (R101, R105). -/
theorem ClaimsOk.after_bindSlot {s : State} (h : ClaimsOk s) (hplat : s.platform.wf = true)
    (hb : s.inst.bind.bound = false) {u : UnitId} {n : Nat} (hn : n < s.platform.slots)
    (hfree : claimOf s u n = some .free) (pin : Nat) : ClaimsOk (bindSlot u n pin s) := by
  have hslot : (BitVec.ofNat 8 n).toNat = n := slot_toNat hplat hn
  have hfree' : ∀ id, claimOf s u n ≠ some (.held (.inst id)) := by simp [hfree]
  have hclaim : ∀ w k, claimOf (bindSlot u n pin s) w k = claimOf (setSlot u n _ s) w k := fun w k => by
    rw [claimOf, bindSlot_slots, claimOf]
  have hprog : ∀ w, (unitOf (bindSlot u n pin s) w).programLoaded =
      (decide (w = u) || (unitOf s w).programLoaded) := fun w => by
    rw [bindSlot_unitOf, loadProgram_programLoaded, claimSlot, setSlot_programLoaded]
  constructor
  case length =>
    intro w
    rw [bindSlot_slots, setSlot_length, bindSlot_platform]; exact h.length w
  case names => simpa [allInsts, bindSlot_inst] using h.names
  case holds =>
    intro i hi hib
    rw [hprog, bindSlot_slots]
    rcases List.mem_cons.1 hi with rfl | hi
    · rw [bindSlot_inst]
      exact ⟨by rw [hslot]; exact setSlot_getElem_same (claimOf_lt hfree) _, by simp⟩
    · have hi : i ∈ allInsts s := List.mem_cons_of_mem _ (bindSlot_peers u n pin s ▸ hi)
      obtain ⟨hheld, hloaded⟩ := h.holds i hi hib
      exact ⟨by rw [setSlot_getElem_other (h.slot_ne hi hib hfree'), hheld], by simp [hloaded]⟩
  case held =>
    intro w k id hc
    rw [hclaim] at hc
    by_cases hwk : w = u ∧ k = n
    · obtain ⟨rfl, rfl⟩ := hwk
      have hid : s.inst.id = id := by simpa using claimOf_setSlot_same hc
      exact ⟨_, List.mem_cons_self, by simp [bindSlot_inst, hid, hslot]⟩
    · rw [claimOf_setSlot_other (not_and_or.1 hwk)] at hc
      obtain ⟨i, hi, hid, hib, hrest⟩ := h.held w k id hc
      rcases List.mem_cons.1 hi with rfl | hi
      · simp [hb] at hib
      · exact ⟨i, List.mem_cons_of_mem _ (by simpa using hi), hid, hib, hrest⟩

/-- Every agent's step keeps the agreement: only INIT touches the claim table or a binding. -/
theorem runActor_claimsOk {a : Actor} {s t : State} (h : runActor a s = .next t) (hplat : s.platform.wf = true)
    (hs : ClaimsOk s) : ClaimsOk t := by
  obtain ⟨hc, hp, -, hid, -⟩ := runActor_frame h
  rcases (agentStep_of_runActor h).bind_cases with ⟨hbind, hunits⟩ | ⟨-, -, -, hb, w, pin, u, -, -, hu, rfl⟩
  · exact hs.congr hc (fun u => by rw [hunits]) (fun u => by rw [hunits])
      (.of_eq (by simp [allInsts, bindingOf, hp, hid, hbind]))
  · obtain ⟨hn, hfree⟩ := chosenSlot_free hu
    have hbound := hs.after_bindSlot hplat hb hn hfree pin
    exact ⟨hbound.length, hbound.names, hbound.holds, hbound.held⟩

/-- A peer's step is an agent's step with the focus changed before and after it (R225). -/
theorem peerStep_claimsOk {k : Nat} {a : Actor} {s t : State} (h : peerStep k a s = .next t)
    (hplat : s.platform.wf = true) (hs : ClaimsOk s) : ClaimsOk t := by
  rcases peerStep_next h with ⟨-, rfl⟩ | ⟨p, t', hk, hr, rfl⟩
  · exact hs
  · have hswap : swapPeer k s = { s with inst := p, peers := s.peers.set k s.inst } := by simp [swapPeer, hk]
    have hs' := hs.after_swapPeer k
    rw [hswap] at hs'
    exact (runActor_claimsOk hr hplat hs').after_swapPeer k

/-- With every slot FREE and no block bound the claim table and the bindings agree (R37). -/
theorem claimsOk_of_allFree {s : State}
    (hslots : ∀ u, (unitOf s u).slots = List.replicate s.platform.slots ⟨.free, none⟩)
    (hnames : ((allInsts s).map (·.id)).Nodup) (hunbound : ∀ i ∈ allInsts s, i.bind.bound = false) : ClaimsOk s where
  length u := by rw [hslots, List.length_replicate]
  names := hnames
  holds i hi hb := absurd hb (Bool.eq_false_iff.1 (hunbound i hi))
  held u slot id hc := by
    obtain ⟨v, hv, hheld⟩ := claimOf_some hc
    rw [hslots] at hv
    obtain rfl := List.eq_of_mem_replicate (List.mem_of_getElem? hv)
    cases hheld

/-- Every unit after the reset event has its slots FREE and nothing loaded (R37, R64). -/
theorem unitOf_resetPlatform (s : State) (u : UnitId) :
    unitOf (resetPlatform s) u = SigUnit.initial s.platform.slots (unitOf s u).progFits := by
  cases u <;> rfl

/-- Every block after the reset event is one in the reset state (R240). -/
theorem mem_allInsts_resetPlatform {s : State} {i : Inst} (h : i ∈ allInsts (resetPlatform s)) :
    ∃ j ∈ allInsts s, resetInst j = i := List.mem_map.1 (allInsts_resetPlatform s ▸ h)

/-- The reset event frees every slot and unbinds every block, so the two agree (R240). -/
theorem ClaimsOk.after_resetPlatform {s : State} (h : ClaimsOk s) : ClaimsOk (resetPlatform s) := by
  refine claimsOk_of_allFree (fun u => by rw [unitOf_resetPlatform]; rfl) ?_ fun i hi => ?_
  · rw [allInsts_resetPlatform, List.map_map]; exact h.names
  · obtain ⟨j, -, rfl⟩ := mem_allInsts_resetPlatform hi
    rfl

/-- Every event keeps the agreement: the environment takes FREE slots and frees its own only (R226). -/
theorem runEvent_claimsOk {e : Event} {s t : State} (h : runEvent e s = .next t) (hplat : s.platform.wf = true)
    (hs : ClaimsOk s) : ClaimsOk t := by
  cases e with
  | own a => exact runActor_claimsOk h hplat hs
  | peer k a => exact peerStep_claimsOk h hplat hs
  | envClaim u n c =>
    cases h
    rcases envClaimSlot_cases u n c s with ⟨hfree, heq⟩ | ⟨-, heq⟩ <;> rw [heq]
    · exact hs.after_setSlot (by simp [hfree]) (by simp)
    · exact hs
  | envRelease u n =>
    cases h
    rcases envReleaseSlot_cases u n s with ⟨⟨c, henv⟩, heq⟩ | ⟨-, heq⟩ <;> rw [heq]
    · exact hs.after_setSlot (by simp [henv]) (by simp)
    · exact hs
  | envProgFits u fits =>
    cases h
    exact hs.congr (envSetProgFits_platform u fits s) (envSetProgFits_slots u · fits s)
      (envSetProgFits_programLoaded u · fits s) (.of_eq (by simp [allInsts]))
  | reset => cases h; exact hs.after_resetPlatform

/-- Settles O55: a step is its next event, and every event keeps the agreement. -/
theorem stepKeepsClaimsConsistent : Obligations.StepKeepsClaimsConsistent := by
  intro s t hs h
  obtain ⟨hwf, -, hr⟩ := step_next h
  have hs' : ClaimsOk { s with schedule := s.schedule.tail } := ⟨hs.length, hs.names, hs.holds, hs.held⟩
  exact runEvent_claimsOk hr (cfgsWf_parts hwf).1 hs'

/-! ## The registers the port shows -/

/-- GEOM reads as the hardwired word of the block's matrix (R29). -/
theorem readRegister_geom (i : Inst) : readRegister i 0x6 = geomWord i.matrix := rfl

/-- GEOM as a number: H above W (R29). -/
theorem geomWord_toNat {c : MatrixCfg} (h : c.wf = true) : (geomWord c).toNat = c.height * 2 ^ 16 + c.width := by
  obtain ⟨⟨-, hw⟩, ⟨-, hh⟩, -⟩ := MatrixCfg.wf_bounds h
  rw [geomWord, append_toNat, BitVec.toNat_ofNat, BitVec.toNat_ofNat]; omega

/-- The reserved register numbers read 0 (R29). -/
theorem readRegister_reserved (i : Inst) {r : BitVec 4} (h : 7 ≤ r.toNat) : readRegister i r = 0 := by
  have hne : ∀ n : BitVec 4, n.toNat < 7 → r ≠ n := fun n hn heq => by subst heq; omega
  simp [readRegister, hne]

/-- A field of a register that is the number `y` has (R10). -/
theorem extractLsb'_eq_of_toNat {n lo len : Nat} {x : BitVec n} {y : BitVec len}
    (h : x.toNat / 2 ^ lo % 2 ^ len = y.toNat) : x.extractLsb' lo len = y :=
  BitVec.eq_of_toNat_eq (by rw [BitVec.extractLsb'_toNat, Nat.shiftRight_eq_div_pow, h])

/-- Settles O44: GEOM is a function of the matrix, which no step changes. -/
theorem geomIsHardwired : Obligations.GeomIsHardwired := by
  refine ⟨fun i hi => ?_, fun s t h => ?_, fun i r hr => readRegister_reserved i hr⟩
  · obtain ⟨⟨-, hw⟩, ⟨-, hh⟩, -⟩ := MatrixCfg.wf_bounds hi
    simp only [readRegister_geom, BitVec.extractLsb'_toNat, geomWord_toNat hi, Nat.shiftRight_eq_div_pow]
    omega
  · obtain ⟨-, hfixed⟩ := configurationAndProgramsAreFixed s t h
    have hgeom := congrArg (List.map fun x : Nat × MatrixCfg × List Word => geomWord x.2.1) hfixed
    rw [List.map_map, List.map_map] at hgeom
    exact hgeom

/-- BIND as a number, field by field (R24). -/
theorem bindWord_toNat (b : BindReg) :
    b.word.toNat = b.pin.toNat * 2 ^ 16 + b.slot.toNat * 2 ^ 8 + (unitBit b.unit).toNat * 2 + b.bound.toNat := by
  simp only [BindReg.word, append_toNat, BitVec.toNat_ofBool, BitVec.toNat_ofNat]
  omega

/-- Settles O43: each field of BIND is cut out of its number. -/
theorem bindRegisterLayout : Obligations.BindRegisterLayout := by
  intro b
  have hword := bindWord_toNat b
  have hbound := b.bound.toNat_lt
  have hbit := (unitBit b.unit).isLt
  have hslot := b.slot.isLt
  have hpin := b.pin.isLt
  have hunit : b.word.extractLsb' 1 1 = unitBit b.unit := extractLsb'_eq_of_toNat (by omega)
  refine ⟨extractLsb'_eq_of_toNat ?_, ?_, extractLsb'_eq_of_toNat ?_, extractLsb'_eq_of_toNat ?_,
    extractLsb'_eq_of_toNat ?_, extractLsb'_eq_of_toNat ?_⟩
  · rw [BitVec.toNat_ofBool]; omega
  · rw [hunit]; cases b.unit <;> rfl
  · show _ = 0; omega
  · omega
  · omega
  · show _ = 0; omega

/-! ## The reset state and the reset event -/

/-- The claim-table entries of a state whose units are as after reset are FREE (R37). -/
theorem claimOf_of_initial {s : State} {u : UnitId} {slots n : Nat} {fits : Bool}
    (h : unitOf s u = SigUnit.initial slots fits) (hn : n < slots) : claimOf s u n = some .free := by
  simp [claimOf, h, SigUnit.initial, hn]

/-- BIND reads 0 after reset (R37). -/
theorem bindWord_zero : BindReg.zero.word = 0 := rfl

/-- The units of the power-on state (R37). -/
theorem unitOf_reset (u : UnitId) : unitOf State.reset u = SigUnit.initial State.reset.platform.slots true := by
  cases u <;> rfl

/-- Settles O1: the registers by evaluation, the claim table from the units' initial slots. -/
theorem powerOnStateHasTheResetValues : Obligations.PowerOnStateHasTheResetValues :=
  ⟨rfl, rfl, rfl, rfl, rfl, rfl, rfl, rfl, rfl, rfl, fun _ => rfl,
    fun u _ hn => claimOf_of_initial (unitOf_reset u) hn, rfl⟩

/-- Settles O2: the reset event is `resetPlatform`, whose blocks are all in the reset state. -/
theorem resetEventRestoresEveryInstance : Obligations.ResetEventRestoresEveryInstance := by
  intro s es hspec hs
  refine ⟨resetPlatform { s with schedule := es }, ?_, fun i hi => ?_, fun i _ => readRegister_geom i,
    fun u slot hn => claimOf_of_initial (unitOf_resetPlatform _ u) hn, rfl, ?_⟩
  · rw [step_inSpec hspec.1 hspec.2, scheduledStep_cons hs]; rfl
  · obtain ⟨j, -, rfl⟩ := mem_allInsts_resetPlatform hi
    exact ⟨rfl, bindWord_zero, rfl, rfl, rfl, rfl, rfl, rfl, rfl, rfl⟩
  · rw [allInsts_resetPlatform, List.map_map]; rfl

/-- Settles O52: the one block is in the reset state, every slot is FREE, and the defaults of R8 are well-formed. -/
theorem resetMeetsTheInvariants : Obligations.ResetMeetsTheInvariants := by
  have hinst : ∀ i ∈ allInsts State.reset, i = Inst.initial 0 Cfg.default.toMatrixCfg [] := fun i hi =>
    List.mem_singleton.1 hi
  refine ⟨fun i hi => ?_, fun i hi => ?_, ?_, by decide⟩
  · rw [hinst i hi]; exact frameBufferOk_initial _ _ _
  · rw [hinst i hi]; exact registersOk_initial _ _ _ _
  · exact claimsOk_of_allFree (fun u => by rw [unitOf_reset]; rfl) (List.nodup_singleton _) fun i hi => by
      rw [hinst i hi]; rfl

end Sys2Proof.Machine
end

section
/-! PROOFS. The obligations about memory and what is kept apart in it: a commit under way is not disturbed, and every slot
of a unit is held by one block. -/

namespace Sys2Proof.Machine

/-! ## A commit under way is not disturbed -/

/-- No agent's step on a busy block touches the buffer, BIND or FAULT (R58, R178). -/
theorem AgentStep.busy_frame {a : Actor} {s t : State} (h : AgentStep s a t) (hp : s.inst.phase ≠ .idle) :
    t.inst.fb = s.inst.fb ∧ t.inst.bind = s.inst.bind ∧ t.inst.fault = s.inst.fault := by
  cases h with
  | fault _ hidle | report _ _ _ hidle | write _ _ _ _ hidle | bind _ _ _ _ hidle => exact absurd hidle hp
  | held | start | nextBit | nextLed | lastBit | latch => exact ⟨rfl, rfl, rfl⟩

/-- A busy block stays busy with its COMMIT at pc, or takes the latch step, which retires the COMMIT (R174, R175). -/
theorem AgentStep.busy_or_latch {a : Actor} {s t : State} (h : AgentStep s a t) (hp : s.inst.phase ≠ .idle) :
    (t.inst.phase ≠ .idle ∧ t.inst.pc = s.inst.pc ∧ t.inst.status = s.inst.status) ∨
    (s.inst.phase = .latch ∧ t.inst.phase = .idle) := by
  cases h with
  | held => exact .inl ⟨hp, rfl, rfl⟩
  | fault _ hidle | report _ _ _ hidle | write _ _ _ _ hidle | bind _ _ _ _ hidle => exact absurd hidle hp
  | start | nextBit | nextLed | lastBit => exact .inl ⟨nofun, rfl, rfl⟩
  | latch hlatch => exact .inr ⟨hlatch, rfl⟩

/-- Settles O35: a step leaves the focused block or is a step of its agents, and on a busy block those only send the frame. -/
theorem commitIsNotDisturbed : Obligations.CommitIsNotDisturbed := by
  intro s t hn hp h
  rcases step_focus_cases hn h with hi | ⟨a, -, ha⟩
  · simp [hi, hp]
  · obtain ⟨hfb, hbind, hfault⟩ := ha.busy_frame hp
    refine ⟨hfb, hbind, hfault, ?_⟩
    rcases ha.busy_or_latch hp with ⟨hbusy, hkeep⟩ | ⟨hlatch, hidle⟩
    · exact ⟨fun _ => hbusy, fun _ => hkeep⟩
    · exact ⟨fun hshift => absurd (hshift.symm.trans hlatch) nofun, fun hbusy => absurd hidle hbusy⟩

/-! ## Slots are held exclusively -/

/-- The pair (unit, slot) a binding names (R24, R61). -/
def BindReg.place (b : BindReg) : UnitId × Nat := (b.unit, b.slot.toNat)

/-- Every (unit, slot) pair of a platform with `slots` slots on each of its two units (R35). -/
def slotPlaces (slots : Nat) : List (UnitId × Nat) := [.primary, .secondary] ×ˢ List.range slots

/-- The pairs are told apart from others by the slot number alone. -/
theorem mem_slotPlaces {slots : Nat} {p : UnitId × Nat} : p ∈ slotPlaces slots ↔ p.2 < slots := by
  obtain ⟨u, n⟩ := p
  cases u <;> simp [slotPlaces]

/-- There are two units' worth of pairs (R61). -/
theorem slotPlaces_length (slots : Nat) : (slotPlaces slots).length = 2 * slots := by
  simp [slotPlaces, two_mul]

/-- A bound block's slot is one of its unit's. -/
theorem ClaimsOk.place_mem {s : State} (h : ClaimsOk s) {i : Inst} (hi : i ∈ allInsts s) (hb : i.bind.bound = true) :
    i.bind.place ∈ slotPlaces s.platform.slots := by
  obtain ⟨hheld, -⟩ := h.holds i hi hb
  rw [mem_slotPlaces, ← h.length i.bind.unit]
  exact (List.getElem?_eq_some_iff.1 hheld).1

/-- A slot has one owner and a name one block, so two bound blocks with the same unit and slot are the same (R61). -/
theorem ClaimsOk.place_inj {s : State} (h : ClaimsOk s) {i j : Inst} (hi : i ∈ allInsts s) (hj : j ∈ allInsts s)
    (hib : i.bind.bound = true) (hjb : j.bind.bound = true) (hplace : i.bind.place = j.bind.place) : i = j := by
  obtain ⟨hunit, hslot⟩ := Prod.mk.inj hplace
  obtain ⟨hi', -⟩ := h.holds i hi hib
  obtain ⟨hj', -⟩ := h.holds j hj hjb
  rw [hunit, hslot, hj'] at hi'
  have hid : i.id = j.id := by simpa using congrArg (Option.map Slot.claim) hi'.symm
  exact List.inj_on_of_nodup_map h.names hi hj hid

/-- A bound block is a block of the platform whose BOUND is 1. -/
theorem mem_boundInsts {s : State} {i : Inst} : i ∈ boundInsts s ↔ i ∈ allInsts s ∧ i.bind.bound = true :=
  List.mem_filter

/-- The slots of the bound blocks are all different. -/
theorem ClaimsOk.places_nodup {s : State} (h : ClaimsOk s) : ((boundInsts s).map (·.bind.place)).Nodup := by
  have hinsts : (boundInsts s).Nodup := h.names.of_map.filter _
  refine hinsts.map_on fun i hi j hj hplace => ?_
  obtain ⟨hi, hib⟩ := mem_boundInsts.1 hi
  obtain ⟨hj, hjb⟩ := mem_boundInsts.1 hj
  exact h.place_inj hi hj hib hjb hplace

/-- Settles O56: from bound block to slot is injective, so there are no more bound blocks than slots on the two units. -/
theorem slotsAreHeldExclusively : Obligations.SlotsAreHeldExclusively := by
  intro s h
  refine ⟨fun i hi j hj hib hjb hunit hslot => h.place_inj hi hj hib hjb (by simp [BindReg.place, hunit, hslot]), ?_⟩
  have hsub : (boundInsts s).map (·.bind.place) ⊆ slotPlaces s.platform.slots := fun p hp => by
    obtain ⟨i, hi, rfl⟩ := List.mem_map.1 hp
    obtain ⟨hi, hib⟩ := mem_boundInsts.1 hi
    exact h.place_mem hi hib
  calc (boundInsts s).length
      = ((boundInsts s).map (·.bind.place)).length := by rw [List.length_map]
    _ ≤ (slotPlaces s.platform.slots).length := (List.subperm_of_subset h.places_nodup hsub).length_le
    _ = 2 * s.platform.slots := slotPlaces_length _

end Sys2Proof.Machine
end

section
/-! PROOFS. The obligations about the encoding: the decoder and the encoder against the fields of R72 to R79, the encoded
examples of R85 both ways and through the assembler, and the fault of a word that is no command. -/

namespace Sys2Proof

/-! ## Fields by their numbers -/

/-- The opcode field, from the word's number (R71). -/
theorem opField_eq_iff {w : Word} {op : Byte} : opField w = op ↔ w.toNat / 2 ^ 56 = op.toNat := by
  rw [← BitVec.toNat_inj, opField_toNat]

/-- A field is cut out of the word's number (R10). -/
theorem bits_eq_ofNat (w : Word) (lo len : Nat) : bits w lo len = BitVec.ofNat len (w.toNat / 2 ^ lo) :=
  BitVec.eq_of_toNat_eq (by rw [bits_toNat, BitVec.toNat_ofNat])

/-- What a field holds, from the word's number (R10, R77). -/
theorem bits_eq_iff {w : Word} {lo len : Nat} {x : BitVec len} :
    bits w lo len = x ↔ w.toNat / 2 ^ lo % 2 ^ len = x.toNat := by
  rw [← BitVec.toNat_inj, bits_toNat]

/-- Reserved bits are zero where their number is (R83). -/
theorem bits_eq_zero_iff {w : Word} {lo len : Nat} : bits w lo len = 0 ↔ w.toNat / 2 ^ lo % 2 ^ len = 0 := by
  simp [bits_eq_iff]

/-- The color field is the low 24 bits (R76). -/
theorem colorField_eq_iff {w : Word} {c : Color} : colorField w = c ↔ w.toNat % 2 ^ 24 = (colorBits c).toNat := by
  have hr := c.r.isLt
  have hg := c.g.isLt
  have hb := c.b.isLt
  rw [colorBits_toNat]
  constructor
  · rintro rfl
    simp only [colorField, bits_toNat]
    omega
  · exact fun h =>
      color_ext (bits_eq_iff.2 (by omega)) (bits_eq_iff.2 (by omega)) (bits_eq_iff.2 (by omega))

/-- CLEAR has no operands (R72). -/
theorem operandBits_clear_toNat : (operandBits .clear).toNat = 0 := rfl

/-- COMMIT has no operands (R72). -/
theorem operandBits_commit_toNat : (operandBits .commit).toNat = 0 := rfl

/-! ## The decoder, opcode by opcode -/

/-- An INIT word with zero reserved bits (R73). -/
theorem decode_initWord {w : Word} (hop : w.toNat / 2 ^ 56 = 1) (hzero : w.toNat / 2 ^ 8 % 2 ^ 48 = 0) :
    decode w = .command (.init (w.toNat % 2 ^ 8)) := by
  have hpin : (bits w 0 8).toNat = w.toNat % 2 ^ 8 := by rw [bits_toNat, pow_zero, Nat.div_one]
  simp [decode, decodeInit, opField_eq_iff (op := 0x01).2 hop, bits_eq_zero_iff.2 hzero, hpin]

theorem decode_clearWord {w : Word} (hop : w.toNat / 2 ^ 56 = 2) (hzero : w.toNat % 2 ^ 56 = 0) :
    decode w = .command .clear := by
  have hbits : bits w 0 56 = 0 := bits_eq_zero_iff.2 (by omega)
  simp [decode, decodeClear, opField_eq_iff (op := 0x02).2 hop, hbits]

theorem decode_setWord {w : Word} (hop : w.toNat / 2 ^ 56 = 3) :
    decode w = .command (.set (w.toNat / 2 ^ 24 % 2 ^ 32) (colorField w)) := by
  simp [decode, decodeSet, opField_eq_iff (op := 0x03).2 hop, bits_toNat]

theorem decode_setxyWord {w : Word} (hop : w.toNat / 2 ^ 56 = 4) :
    decode w = .command (.setxy (w.toNat / 2 ^ 40 % 2 ^ 16) (w.toNat / 2 ^ 24 % 2 ^ 16) (colorField w)) := by
  simp [decode, decodeSetxy, opField_eq_iff (op := 0x04).2 hop, bits_toNat]

theorem decode_commitWord {w : Word} (hop : w.toNat / 2 ^ 56 = 5) (hzero : w.toNat % 2 ^ 56 = 0) :
    decode w = .command .commit := by
  have hbits : bits w 0 56 = 0 := bits_eq_zero_iff.2 (by omega)
  simp [decode, decodeCommit, opField_eq_iff (op := 0x05).2 hop, hbits]

/-- What a word that decodes to a command is, by its number (R79). -/
theorem decode_command_fields {w : Word} {i : Instr} (h : decode w = .command i) :
    (w.toNat / 2 ^ 56 = 1 ∧ w.toNat / 2 ^ 8 % 2 ^ 48 = 0 ∧ i = .init (w.toNat % 2 ^ 8)) ∨
    (w.toNat / 2 ^ 56 = 2 ∧ w.toNat % 2 ^ 56 = 0 ∧ i = .clear) ∨
    (w.toNat / 2 ^ 56 = 3 ∧ i = .set (w.toNat / 2 ^ 24 % 2 ^ 32) (colorField w)) ∨
    (w.toNat / 2 ^ 56 = 4 ∧ i = .setxy (w.toNat / 2 ^ 40 % 2 ^ 16) (w.toNat / 2 ^ 24 % 2 ^ 16) (colorField w)) ∨
    (w.toNat / 2 ^ 56 = 5 ∧ w.toNat % 2 ^ 56 = 0 ∧ i = .commit) := by
  simpa only [opField_eq_iff, bits_eq_zero_iff, bits_toNat, pow_zero, Nat.div_one,
    BitVec.reduceToNat] using
    Machine.decode_command_cases h

/-- The words that are Illegal: a reserved opcode, or a nonzero reserved bit (R79, R80). -/
theorem decode_illegal_iff {w : Word} :
    (∃ why, decode w = .illegal why) ↔
      (w.toNat / 2 ^ 56 = 0 ∨ 5 < w.toNat / 2 ^ 56) ∨ (w.toNat / 2 ^ 56 = 1 ∧ w.toNat / 2 ^ 8 % 2 ^ 48 ≠ 0) ∨
      ((w.toNat / 2 ^ 56 = 2 ∨ w.toNat / 2 ^ 56 = 5) ∧ w.toNat % 2 ^ 56 ≠ 0) := by
  constructor
  · rintro ⟨why, hd⟩
    have hne : ∀ i, decode w ≠ .command i := fun i hi => Decoded.noConfusion (hd.symm.trans hi)
    by_contra hgood
    obtain ⟨hop, hzero⟩ | ⟨hop, hzero⟩ | hop | hop | ⟨hop, hzero⟩ :
        (w.toNat / 2 ^ 56 = 1 ∧ w.toNat / 2 ^ 8 % 2 ^ 48 = 0) ∨ (w.toNat / 2 ^ 56 = 2 ∧ w.toNat % 2 ^ 56 = 0) ∨
        w.toNat / 2 ^ 56 = 3 ∨ w.toNat / 2 ^ 56 = 4 ∨ (w.toNat / 2 ^ 56 = 5 ∧ w.toNat % 2 ^ 56 = 0) := by omega
    · exact hne _ (decode_initWord hop hzero)
    · exact hne _ (decode_clearWord hop hzero)
    · exact hne _ (decode_setWord hop)
    · exact hne _ (decode_setxyWord hop)
    · exact hne _ (decode_commitWord hop hzero)
  · intro hbad
    cases hd : decode w with
    | illegal why => exact ⟨why, rfl⟩
    | command i =>
      have hgood := decode_command_fields hd
      omega

/-- Settles O6: one lemma for each opcode that R79 assigns, and which words none of them reads. -/
theorem decoderReadsEveryField : Obligations.DecoderReadsEveryField := by
  intro w
  have hcolor : colorField w =
      ⟨BitVec.ofNat 8 (w.toNat / 2 ^ 16), BitVec.ofNat 8 (w.toNat / 2 ^ 8), BitVec.ofNat 8 w.toNat⟩ := by
    simp [colorField, bits_eq_ofNat]
  exact ⟨decode_initWord, decode_clearWord, hcolor ▸ decode_setWord, hcolor ▸ decode_setxyWord, decode_commitWord,
    decode_illegal_iff⟩

/-! ## Decode and encode are inverse -/

/-- Every operand at every value that fits its field comes back from the command's word (R72 to R79). -/
theorem decode_encode {i : Instr} (hwf : i.wf = true) : decode (encode i) = .command i := by
  have hword := encode_toNat i
  cases i with
  | init pin =>
    have hpin : pin < 2 ^ 8 := by simpa [Instr.wf] using hwf
    rw [opcode_init_toNat, operandBits_init_toNat] at hword
    rw [decode_initWord (by omega) (by omega), show (encode (.init pin)).toNat % 2 ^ 8 = pin by omega]
  | clear =>
    rw [opcode_clear_toNat, operandBits_clear_toNat] at hword
    exact decode_clearWord (by omega) (by omega)
  | set index c =>
    have hindex : index < 2 ^ 32 := by simpa [Instr.wf] using hwf
    have hc := (colorBits c).isLt
    rw [opcode_set_toNat, operandBits_set_toNat] at hword
    rw [decode_setWord (by omega), colorField_eq_iff (c := c).2 (by omega),
      show (encode (.set index c)).toNat / 2 ^ 24 % 2 ^ 32 = index by omega]
  | setxy x y c =>
    obtain ⟨hx, hy⟩ : x < 2 ^ 16 ∧ y < 2 ^ 16 := by simpa [Instr.wf] using hwf
    have hc := (colorBits c).isLt
    rw [opcode_setxy_toNat, operandBits_setxy_toNat] at hword
    rw [decode_setxyWord (by omega), colorField_eq_iff (c := c).2 (by omega),
      show (encode (.setxy x y c)).toNat / 2 ^ 40 % 2 ^ 16 = x by omega,
      show (encode (.setxy x y c)).toNat / 2 ^ 24 % 2 ^ 16 = y by omega]
  | commit =>
    rw [opcode_commit_toNat, operandBits_commit_toNat] at hword
    exact decode_commitWord (by omega) (by omega)

/-- Settles O7: each format's fields are read back from the number of the command's word. -/
theorem decodeOfEncodeIsTheCommand : Obligations.DecodeOfEncodeIsTheCommand := fun _ => decode_encode

/-- A decoded command's operands fit their fields, being read from them (R77). -/
theorem wf_of_decode {w : Word} {i : Instr} (h : decode w = .command i) : i.wf = true := by
  rcases decode_command_fields h with ⟨-, -, rfl⟩ | ⟨-, -, rfl⟩ | ⟨-, rfl⟩ | ⟨-, rfl⟩ | ⟨-, -, rfl⟩
  · simp [Instr.wf, Nat.mod_lt]
  · rfl
  · simp [Instr.wf, Nat.mod_lt]
  · simp [Instr.wf, Nat.mod_lt]
  · rfl

/-- A word that decodes to a command is that command's word: its fields and its zero reserved bits are all of it (R81). -/
theorem encode_of_decode {w : Word} {i : Instr} (h : decode w = .command i) : encode i = w := by
  have hword := encode_toNat i
  have hcolor : w.toNat % 2 ^ 24 = (colorBits (colorField w)).toNat := colorField_eq_iff.1 rfl
  refine BitVec.eq_of_toNat_eq ?_
  rcases decode_command_fields h with
    ⟨hop, hzero, rfl⟩ | ⟨hop, hzero, rfl⟩ | ⟨hop, rfl⟩ | ⟨hop, rfl⟩ | ⟨hop, hzero, rfl⟩
  · rw [opcode_init_toNat, operandBits_init_toNat] at hword; omega
  · rw [opcode_clear_toNat, operandBits_clear_toNat] at hword; omega
  · rw [opcode_set_toNat, operandBits_set_toNat] at hword; omega
  · rw [opcode_setxy_toNat, operandBits_setxy_toNat] at hword; omega
  · rw [opcode_commit_toNat, operandBits_commit_toNat] at hword; omega

/-- Settles O8: a decoded command determines its word, by `encode_of_decode`. -/
theorem everyCommandHasOneWord : Obligations.EveryCommandHasOneWord := by
  refine ⟨fun w => ?_, fun w i h => ⟨wf_of_decode h, encode_of_decode h⟩,
    fun v w i hv hw => (encode_of_decode hv).symm.trans (encode_of_decode hw)⟩
  cases hd : decode w with
  | command i => exact .inl ⟨i, rfl, fun j hj => (Decoded.command.inj hj).symm⟩
  | illegal why => exact .inr ⟨why, rfl⟩

/-! ## The examples of R85 -/

/-- Settles O5: the words by evaluation, the commands back by `decode_encode`. -/
theorem encodedExamplesOfTheSpec : Obligations.EncodedExamplesOfTheSpec := by
  intro p hp
  obtain ⟨hwf, hword⟩ : p.1.wf = true ∧ encode p.1 = p.2 := by revert p; decide
  exact ⟨hword, hword ▸ decode_encode hwf⟩

end Sys2Proof

namespace Sys2Proof.Machine

/-- The line's mnemonic is RENDER or SHOWDIGIT (R83, R84). -/
def isGlyphLine (line : List Char) : Bool :=
  let mnemonic := (trim (stripComment line)).takeWhile fun ch => !isBlank ch
  mnemonic == ['R', 'E', 'N', 'D', 'E', 'R'] || mnemonic == ['S', 'H', 'O', 'W', 'D', 'I', 'G', 'I', 'T']

/-- A line of another mnemonic assembles the same under every configuration: only the expansion of those two reads one
(R84). -/
theorem assembleLine_eq_of_not_glyph {line : List Char} (h : isGlyphLine line = false) (c d : Cfg) :
    assembleLine c line = assembleLine d line := by
  obtain ⟨hrender, hshow⟩ := Bool.or_eq_false_iff.1 h
  simp only [assembleLine, hrender, hshow, Bool.false_eq_true, if_false]

/-- Settles O9: none of the lines reads the configuration, so the default one stands for every other. -/
theorem assemblerWritesTheExampleWords : Obligations.AssemblerWritesTheExampleWords := by
  intro p hp c
  obtain ⟨hplain, hline⟩ : isGlyphLine p.1 = false ∧ assembleLine Cfg.default p.1 = .words [p.2] := by
    revert p; decide
  rw [assembleLine_eq_of_not_glyph hplain c Cfg.default, hline]

/-! ## The fault of an illegal word -/

/-- With nothing scheduled it is a ready block's own host that moves (R100, R219). -/
theorem step_ready_unscheduled {s : State} {w : Word} (hspec : InSpec s) (hr : Ready s.inst w) (hs : s.schedule = []) :
    step s = hostStep s := by
  obtain ⟨hf, hp, hw⟩ := hr
  have hhost : enabledActor s.inst = .host := by rw [enabledActor, hp]
  have henabled : actorEnabled .host s.inst = true := actorEnabled_host_iff.2 ⟨hf, hp, w, hw⟩
  rw [step_inSpec hspec.1 hspec.2, scheduledStep_nil hs (hhost ▸ henabled), hhost, runActor]

/-- The step of a scheduled host (R100). -/
theorem step_host_scheduled {s : State} {es : List Event} (hspec : InSpec s) (hs : s.schedule = .own .host :: es) :
    step s = hostStep { s with schedule := es } := by
  rw [step_inSpec hspec.1 hspec.2, scheduledStep_cons hs, runEvent, runActor]

/-- The host of a ready block raises F_ILLEGAL at an illegal word, before any check for a binding (R80, R100). -/
theorem hostStep_illegal {s : State} {w : Word} {why : Illegal} (hr : Ready s.inst w) (hd : decode w = .illegal why) :
    hostStep s = .next (raiseFault .illegal s) := by
  obtain ⟨hf, hp, hw⟩ := hr
  simp [hostStep, hf, hp, hw, hd]

/-- Settles O12: with either schedule it is the ready block's host that moves. -/
theorem illegalWordRaisesIllegal : Obligations.IllegalWordRaisesIllegal := by
  intro s w why hspec hr hd
  refine ⟨fun hs => ?_, fun es hs => ?_⟩
  · rw [step_ready_unscheduled hspec hr hs]
    exact hostStep_illegal hr hd
  · rw [step_host_scheduled hspec hs]
    exact hostStep_illegal (s := { s with schedule := es }) hr hd

end Sys2Proof.Machine
end

section
/-! PROOFS. The obligations about the binding: what INIT does to the block and to the claim table, its faults and their
order, the fault of every other command without a binding, and that a step runs the decoded command. -/

namespace Sys2Proof.Machine

/-! ## The unit INIT takes -/

/-- The primary unit is taken where it is usable (R102). -/
theorem pickUnit_of_primary {s : State} (h : usable s .primary = true) : pickUnit s = some .primary := by
  simp [pickUnit, h]

/-- The secondary unit is taken where it alone is usable (R102). -/
theorem pickUnit_of_secondary {s : State} (hp : usable s .primary = false) (hs : usable s .secondary = true) :
    pickUnit s = some .secondary := by
  simp [pickUnit, hp, hs]

/-- No unit is taken where none is usable (R103). -/
theorem pickUnit_of_none {s : State} (hp : usable s .primary = false) (hs : usable s .secondary = false) :
    pickUnit s = none := by
  simp [pickUnit, hp, hs]

/-- A unit is not usable without a FREE slot or without PROG_FITS (R105). -/
theorem usable_eq_false_iff {s : State} {u : UnitId} :
    usable s u = false ↔
      ¬ ((∃ n, n < s.platform.slots ∧ claimOf s u n = some .free) ∧ (unitOf s u).progFits = true) := by
  rw [← usable_iff, Bool.not_eq_true]

/-! ## The branches of INIT -/

/-- INIT on a bound block (R101). -/
theorem exec_init_of_bound {s : State} (pin : Nat) (hb : s.inst.bind.bound = true) :
    exec (.init pin) s = .next (raiseFault .reinit s) := by
  simp [exec, execInit, hb]

/-- INIT with a pin that cannot drive the unit (R109). -/
theorem exec_init_of_incapable {s : State} {pin : Nat} (hb : s.inst.bind.bound = false)
    (hp : pinCapable s.platform pin = false) : exec (.init pin) s = .next (raiseFault .pin s) := by
  simp [exec, execInit, hb, hp]

/-- INIT where no unit is usable (R103). -/
theorem exec_init_of_noUnit {s : State} {pin : Nat} (hb : s.inst.bind.bound = false)
    (hp : pinCapable s.platform pin = true) (hu : pickUnit s = none) :
    exec (.init pin) s = .next (raiseFault .noSlot s) := by
  simp [exec, execInit, hb, hp, hu]

/-- INIT where a unit is usable (R101). -/
theorem exec_init_of_unit {s : State} {pin : Nat} {u : UnitId} (hb : s.inst.bind.bound = false)
    (hp : pinCapable s.platform pin = true) (hu : pickUnit s = some u) :
    exec (.init pin) s = .next (countDraw (bindSlot u (chosenSlot s u) pin s)) := by
  simp [exec, execInit, hb, hp, hu]

/-- An INIT that answers a next state raised one of its faults, or bound the unbound block to a FREE slot (R110). -/
theorem exec_init_next {pin : Nat} {s t : State} (h : exec (.init pin) s = .next t) :
    (∃ f, (f = .noSlot ∨ f = .reinit ∨ f = .pin) ∧ t = raiseFault f s) ∨
    (∃ u n, s.inst.bind.bound = false ∧ n < s.platform.slots ∧ t = countDraw (bindSlot u n pin s)) := by
  rcases exec_next h with ⟨f, rfl, ⟨-, -, hne⟩ | ⟨-, -, ⟨rfl, -⟩ | ⟨-, rfl | rfl⟩⟩⟩ | ⟨-, hne, -⟩ | ⟨-, hne, -⟩ |
    ⟨hc, -⟩ | ⟨pin', u, hi, hb, -, hu, rfl⟩
  · exact absurd rfl (hne pin)
  · exact .inl ⟨.reinit, by simp, rfl⟩
  · exact .inl ⟨.pin, by simp, rfl⟩
  · exact .inl ⟨.noSlot, by simp, rfl⟩
  · exact absurd rfl (hne pin)
  · exact absurd rfl (hne pin)
  · cases hc
  · cases hi
    exact .inr ⟨u, chosenSlot s u, hb, (chosenSlot_free (pickUnit_usable hu)).1, rfl⟩

/-! ## The units after INIT's writes -/

/-- The draw counter is no part of a unit. -/
@[simp] theorem unitOf_countDraw (s : State) (u : UnitId) : unitOf (countDraw s) u = unitOf s u := by
  cases u <;> rfl

/-- INIT leaves the unit it does not take (R101). -/
theorem bindSlot_unitOf_other {u w : UnitId} (h : w ≠ u) (n pin : Nat) (s : State) :
    unitOf (bindSlot u n pin s) w = unitOf s w := by
  rw [bindSlot_unitOf, loadProgram, unitOf_setUnit_other h, claimSlot, setSlot_unitOf_other h]

/-- INIT gives the FREE slot it takes to the block and configures it (R101, R105). -/
theorem bindSlot_slot_same {u : UnitId} {n : Nat} {s : State} (h : claimOf s u n = some .free) (pin : Nat) :
    (unitOf (bindSlot u n pin s) u).slots[n]? =
      some ⟨.held (.inst s.inst.id), some ⟨BitVec.ofNat 8 pin, fBit⟩⟩ := by
  rw [bindSlot_slots, setSlot_getElem_same (claimOf_lt h)]

/-- INIT leaves every other slot of both units (R101). -/
theorem bindSlot_slot_other {u w : UnitId} {n k : Nat} (h : w ≠ u ∨ k ≠ n) (pin : Nat) (s : State) :
    (unitOf (bindSlot u n pin s) w).slots[k]? = (unitOf s w).slots[k]? := by
  rw [bindSlot_slots, setSlot_getElem_other h]

/-- The unit INIT takes holds the waveform program (R105). -/
theorem bindSlot_programLoaded (u : UnitId) (n pin : Nat) (s : State) :
    (unitOf (bindSlot u n pin s) u).programLoaded = true := by
  simp [bindSlot_unitOf, loadProgram_programLoaded]

/-- INIT leaves the environment's answers (R105). -/
theorem bindSlot_progFits (u w : UnitId) (n pin : Nat) (s : State) :
    (unitOf (bindSlot u n pin s) w).progFits = (unitOf s w).progFits := by
  rw [bindSlot_unitOf, loadProgram_progFits, claimSlot, setSlot_progFits]

/-! ## INIT -/

/-- Settles O16: the unit of the statement is the one INIT takes, and the slot is the one drawn from its FREE slots. -/
theorem initBindsOneFreeSlot : Obligations.InitBindsOneFreeSlot := by
  intro pin s u canUse hb hp hcase
  have hpick : pickUnit s = some u := by
    rcases hcase with ⟨rfl, h⟩ | ⟨rfl, hno, h⟩
    · exact pickUnit_of_primary (usable_iff.2 h)
    · exact pickUnit_of_secondary (usable_eq_false_iff.2 hno) (usable_iff.2 h)
  obtain ⟨hlt, hfree⟩ := chosenSlot_free (pickUnit_usable hpick)
  have hslot := bindSlot_slot_same hfree pin
  refine ⟨chosenSlot s u, _, [], exec_init_of_unit hb hp hpick, hlt, hfree, ?_, fun v n hne => ?_, ?_, ?_, ?_,
    fun _ => rfl, ?_, ?_, ?_⟩
  · simp [claimOf, hslot]
  · rw [unitOf_countDraw, bindSlot_slot_other hne]
  · rw [unitOf_countDraw, bindSlot_programLoaded]
  · rw [unitOf_countDraw, hslot]; rfl
  · rw [countDraw_inst, bindSlot_inst]
  · rw [countDraw_peers, bindSlot_peers]
  · rw [countDraw_platform, bindSlot_platform]
  · rw [countDraw_schedule, bindSlot_schedule]

/-- Settles O17: the three faulting branches of INIT in R101's order. -/
theorem initFaultsInOrder : Obligations.InitFaultsInOrder := by
  intro pin s canUse
  refine ⟨exec_init_of_bound pin, fun hb hp => ?_, fun hb hp hprimary hsecondary => ?_⟩
  · exact exec_init_of_incapable hb (by simpa [pinCapable] using hp)
  · exact exec_init_of_noUnit hb (by simpa [pinCapable] using hp)
      (pickUnit_of_none (usable_eq_false_iff.2 hprimary) (usable_eq_false_iff.2 hsecondary))

/-- Settles O18: INIT never stops, and its next state is a fault's or a binding's. -/
theorem initRetiresOrFaults : Obligations.InitRetiresOrFaults := by
  intro pin s
  obtain ⟨t, ht⟩ : ∃ t, exec (.init pin) s = .next t := execInit_progress pin s
  refine ⟨t, ht, ?_⟩
  rcases exec_init_next ht with ⟨f, hf, rfl⟩ | ⟨u, n, -, -, rfl⟩
  · refine .inr ⟨rfl, ?_⟩
    rcases hf with rfl | rfl | rfl
    · exact .inl rfl
    · exact .inr (.inl rfl)
    · exact .inr (.inr rfl)
  · exact .inl (by simp [bindSlot_inst])

/-- Settles O19: a fault leaves BIND and all but FAULT; a binding changes BIND, and the slot it names is the one claimed,
because a slot number of a well-formed platform fits BIND.SLOT. -/
theorem initFrame : Obligations.InitFrame := by
  intro pin s t hplat ht
  obtain ⟨hc, hp, hsched, hid, hm, hprog⟩ := exec_frame ht
  refine ⟨hc, hp, hsched, hid, hm, hprog, ?_⟩
  rcases exec_init_next ht with ⟨f, -, rfl⟩ | ⟨u, n, hb, hn, rfl⟩
  · exact ⟨rfl, fun _ => rfl, fun hne => absurd rfl hne⟩
  · have hbind : (countDraw (bindSlot u n pin s)).inst.bind = ⟨true, u, BitVec.ofNat 8 n, BitVec.ofNat 8 pin⟩ := by
      rw [countDraw_inst, bindSlot_inst]
    rw [hbind]
    refine ⟨by simp [bindSlot_inst], fun heq => ?_,
      fun _ => ⟨by simp [bindSlot_inst], fun v hv => ?_, fun k hk => ?_, ?_⟩⟩
    · simp [← heq] at hb
    · rw [unitOf_countDraw, bindSlot_unitOf_other hv]
    · rw [slot_toNat hplat hn] at hk
      rw [unitOf_countDraw, bindSlot_slot_other (.inr hk)]
    · rw [unitOf_countDraw, bindSlot_progFits]

/-! ## The other commands, and the host's step -/

/-- Every command but INIT stands behind the check for a binding (R100). -/
theorem exec_eq_whenBound {i : Instr} (h : ∀ pin, i ≠ .init pin) (s : State) : ∃ k, exec i s = whenBound s k := by
  cases i with
  | init pin => exact absurd rfl (h pin)
  | clear | set index color | setxy x y color | commit => exact ⟨_, rfl⟩

/-- Settles O13: the check for a binding comes before all else a command does. -/
theorem unboundCommandRaisesUnbound : Obligations.UnboundCommandRaisesUnbound := by
  intro i s hb hi
  obtain ⟨k, hk⟩ := exec_eq_whenBound hi s
  rw [hk, whenBound_unbound hb]
  rfl

/-- The host of a ready block executes the decoded command (R100). -/
theorem hostStep_command {s : State} {w : Word} {i : Instr} (hr : Ready s.inst w) (hd : decode w = .command i) :
    hostStep s = exec i s := by
  obtain ⟨hf, hp, hw⟩ := hr
  simp [hostStep, hf, hp, hw, hd]

/-- Settles O10: with either schedule it is the ready block's host that moves. -/
theorem stepRunsTheDecodedCommand : Obligations.StepRunsTheDecodedCommand := by
  intro s w i hspec hr hd
  refine ⟨fun hs => ?_, fun es hs => ?_⟩
  · rw [step_ready_unscheduled hspec hr hs]
    exact hostStep_command hr hd
  · rw [step_host_scheduled hspec hs]
    exact hostStep_command (s := { s with schedule := es }) hr hd

end Sys2Proof.Machine
end

section
/-! PROOFS. The obligations about the frame buffer: what CLEAR and SET do, and the frame of the three commands that write
the buffer. -/

namespace Sys2Proof.Machine

/-! ## CLEAR -/

/-- CLEAR on a bound block that has its buffer (R121). -/
theorem exec_clear_of_some {s : State} {m : Memory} (hb : s.inst.bind.bound = true) (hm : s.inst.fb = some m) :
    exec .clear s = .next (retire .ok (setFb [] s)) := by
  rw [exec, execClear, whenBound_bound hb, fbClear_some hm, onNext_next]

/-- A CLEAR on a bound block that answers a next state emptied the buffer and retired. -/
theorem exec_clear_next {s t : State} (hb : s.inst.bind.bound = true) (h : exec .clear s = .next t) :
    t = retire .ok (setFb [] s) := by
  rw [exec, execClear, whenBound_bound hb] at h
  obtain ⟨s', hclear, hretire⟩ := onNext_eq_next h
  obtain ⟨-, -, rfl⟩ := fbClear_next hclear
  cases hretire
  rfl

/-- Settles O20: the buffer CLEAR leaves lists no entry, and an unlisted entry reads ZERO. -/
theorem clearZeroesEveryEntry : Obligations.ClearZeroesEveryEntry := by
  intro s m hb hm
  exact ⟨[], exec_clear_of_some hb hm, Memory.read_nil⟩

/-- Settles O21: each of the two CLEARs leaves the empty buffer and writes no register of the line. -/
theorem clearIsIdempotent : Obligations.ClearIsIdempotent := by
  intro s t u hb ht hu
  obtain rfl := exec_clear_next hb ht
  obtain rfl := exec_clear_next (s := retire .ok (setFb [] s)) hb hu
  exact ⟨rfl, rfl, rfl⟩

/-! ## The store of SET and SETXY -/

/-- What SET and SETXY share (R124, R142): behind the check for a binding, store to entry `a` where the operand is `inside`,
and report `r` where it is not. -/
def storeOrReport (inside : Bool) (a : Nat) (color : Color) (r : ResultCode) (s : State) : Out :=
  whenBound s <|
    if inside then onNext (fbWrite a color s) fun t => .next (retire .ok t)
    else .next (retire r s)

theorem exec_set_eq_storeOrReport (index : Nat) (color : Color) (s : State) :
    exec (.set index color) s = storeOrReport (indexInRange s.inst.matrix index) index color .errIndex s := rfl

theorem exec_setxy_eq_storeOrReport (x y : Nat) (color : Color) (s : State) :
    exec (.setxy x y color) s =
      storeOrReport (coordInRange s.inst.matrix x y) (mapIndex s.inst.matrix x y) color .errCoord s := rfl

section
variable {a : Nat} {color : Color} {r : ResultCode} {s : State}

theorem storeOrReport_outside (hb : s.inst.bind.bound = true) :
    storeOrReport false a color r s = .next (retire r s) := by
  rw [storeOrReport, whenBound_bound hb, if_neg Bool.false_ne_true]

theorem storeOrReport_inside {m : Memory} (hb : s.inst.bind.bound = true) (hm : s.inst.fb = some m)
    (ha : a < ledCount s.inst.matrix) :
    storeOrReport true a color r s = .next (retire .ok (setFb (Memory.write m a color) s)) := by
  rw [storeOrReport, whenBound_bound hb, if_pos rfl, fbWrite_some color hm ha, onNext_next]

/-- Everything a store that answers a next state can have done: the fault, the report, or one entry written. -/
theorem storeOrReport_next {inside : Bool} {t : State} (h : storeOrReport inside a color r s = .next t) :
    t = raiseFault .unbound s ∨ t = retire r s ∨
    (inside = true ∧ ∃ m, s.inst.fb = some m ∧ t = retire .ok (setFb (Memory.write m a color) s)) := by
  cases hb : s.inst.bind.bound with
  | false =>
    rw [storeOrReport, whenBound_unbound hb] at h
    cases h
    exact .inl rfl
  | true =>
    cases inside with
    | false =>
      rw [storeOrReport_outside hb] at h
      cases h
      exact .inr (.inl rfl)
    | true =>
      rw [storeOrReport, whenBound_bound hb, if_pos rfl] at h
      obtain ⟨s', hwrite, hretire⟩ := onNext_eq_next h
      obtain ⟨m, hm, -, rfl⟩ := fbWrite_next hwrite
      cases hretire
      exact .inr (.inr ⟨rfl, m, hm, rfl⟩)

/-- A store leaves every entry but its own, and every entry where its operand is outside. -/
theorem storeOrReport_read_other {inside : Bool} {t : State} {m m' : Memory} {b : Nat}
    (h : storeOrReport inside a color r s = .next t) (hm : s.inst.fb = some m) (hwf : Memory.wf m = true)
    (hm' : t.inst.fb = some m') (hother : b ≠ a ∨ inside = false) : Memory.read m' b = Memory.read m b := by
  rcases storeOrReport_next h with rfl | rfl | ⟨hin, m₀, hm₀, rfl⟩
  · cases hm.symm.trans hm'
    rfl
  · cases hm.symm.trans hm'
    rfl
  · cases hm.symm.trans hm₀
    cases hm'
    have hne : b ≠ a := hother.resolve_right (by simp [hin])
    exact Memory.read_write_other hwf color hne

end

/-- Settles O22: an index of `N` or more is reported, and an index below `N` is written. -/
theorem setWritesOrReports : Obligations.SetWritesOrReports := by
  intro index color s m hb hm hwf
  rw [exec_set_eq_storeOrReport]
  refine ⟨fun hout => ?_, fun hin => ?_⟩
  · have hrange : indexInRange s.inst.matrix index = false := decide_eq_false (Nat.not_lt.2 hout)
    rw [hrange]
    exact storeOrReport_outside hb
  · have hrange : indexInRange s.inst.matrix index = true := decide_eq_true hin
    rw [hrange]
    exact ⟨_, storeOrReport_inside hb hm hin, Memory.read_write_same hwf index color,
      fun _ hne => Memory.read_write_other hwf color hne⟩

/-! ## The frame of the commands that write the buffer -/

/-- Everything such a command that answers a next state can have done: the fault of a block without a binding, a report,
or a new buffer with result OK. -/
theorem exec_bufferCommand_next {i : Instr} {s t : State} (hinit : ∀ pin, i ≠ .init pin) (hcommit : i ≠ .commit)
    (h : exec i s = .next t) :
    (s.inst.bind.bound = false ∧ t = raiseFault .unbound s) ∨
    (s.inst.bind.bound = true ∧ ((∃ r, t = retire r s) ∨ ∃ m, t = retire .ok (setFb m s))) := by
  rcases exec_next h with ⟨f, rfl, ⟨rfl, hb, -⟩ | ⟨pin, hi, -⟩⟩ | ⟨hb, -, r, -, rfl⟩ | ⟨hb, -, -, m, -, rfl, -⟩ |
    ⟨hi, -⟩ | ⟨pin, -, hi, -⟩
  · exact .inl ⟨hb, rfl⟩
  · exact absurd hi (hinit pin)
  · exact .inr ⟨hb, .inl ⟨r, rfl⟩⟩
  · exact .inr ⟨hb, .inr ⟨m, rfl⟩⟩
  · exact absurd hi hcommit
  · exact absurd hi (hinit pin)

/-- The registers such a command can change: FAULT only without a binding, and then nothing else (R212, R214). -/
theorem exec_bufferCommand_frame {i : Instr} {s t : State} (hinit : ∀ pin, i ≠ .init pin) (hcommit : i ≠ .commit)
    (h : exec i s = .next t) :
    t = { s with inst := { s.inst with
            fb := t.inst.fb, status := t.inst.status, fault := t.inst.fault, pc := t.inst.pc } } ∧
    (s.inst.bind.bound = true → t.inst.fault = s.inst.fault) ∧
    (s.inst.bind.bound = false →
      t.inst.fb = s.inst.fb ∧ t.inst.status = s.inst.status ∧ t.inst.pc = s.inst.pc) := by
  rcases exec_bufferCommand_next hinit hcommit h with ⟨hb, rfl⟩ | ⟨hb, ⟨r, rfl⟩ | ⟨m, rfl⟩⟩
  · exact ⟨rfl, by simp [hb], fun _ => ⟨rfl, rfl, rfl⟩⟩
  · exact ⟨rfl, fun _ => rfl, by simp [hb]⟩
  · exact ⟨rfl, fun _ => rfl, by simp [hb]⟩

/-- Settles O27: the registers by what the commands share, the entries by the store of SET and SETXY. -/
theorem bufferCommandFrame : Obligations.BufferCommandFrame := by
  intro i s t hi h
  have hkind : (∀ pin, i ≠ .init pin) ∧ i ≠ .commit := by
    rcases hi with rfl | ⟨index, color, rfl⟩ | ⟨x, y, color, rfl⟩ <;> simp
  obtain ⟨hregs, hfault, hstay⟩ := exec_bufferCommand_frame hkind.1 hkind.2 h
  refine ⟨hregs, hfault, hstay, ?_, ?_⟩
  · rintro index color rfl m m' hm hwf hm' b hother
    rw [exec_set_eq_storeOrReport] at h
    exact storeOrReport_read_other h hm hwf hm' hother
  · rintro x y color rfl m m' hm hwf hm' b hother
    rw [exec_setxy_eq_storeOrReport] at h
    exact storeOrReport_read_other h hm hwf hm' hother

end Sys2Proof.Machine
end

section
/-! PROOFS. The obligations about the coordinate mapper: the serpentine map as a row and a place in the row, and what SETXY
does with it. -/

namespace Sys2Proof.Machine

/-! ## A row and a place in the row -/

/-- The offset of column `x` in row `y` along the wire (R140): the second summand of `mapIndex`. -/
def placeInRow (c : MatrixCfg) (x y : Nat) : Nat := if y % 2 = 0 then x else c.width - 1 - x

section
variable {c : MatrixCfg} {x y : Nat}

theorem mapIndex_eq_row_add_place (c : MatrixCfg) (x y : Nat) : mapIndex c x y = y * c.width + placeInRow c x y := rfl

theorem placeInRow_even (h : y % 2 = 0) : placeInRow c x y = x := if_pos h

theorem placeInRow_odd (h : y % 2 ≠ 0) : placeInRow c x y = c.width - 1 - x := if_neg h

theorem placeInRow_lt (hx : x < c.width) : placeInRow c x y < c.width := by
  by_cases heven : y % 2 = 0
  · rwa [placeInRow_even heven]
  · rw [placeInRow_odd heven]; omega

/-- The column that stands at place `placeInRow c x y` of row `y` is `x`: keeping a row and reversing it are each their own
inverse. -/
theorem placeInRow_placeInRow (hx : x < c.width) : placeInRow c (placeInRow c x y) y = x := by
  by_cases heven : y % 2 = 0
  · rw [placeInRow_even heven, placeInRow_even heven]
  · rw [placeInRow_odd heven, placeInRow_odd heven]; omega

theorem mapIndex_div_width (hx : x < c.width) : mapIndex c x y / c.width = y := by
  rw [mapIndex_eq_row_add_place, Nat.mul_comm, Nat.mul_add_div (Nat.zero_lt_of_lt hx),
    Nat.div_eq_of_lt (placeInRow_lt hx), Nat.add_zero]

theorem mapIndex_mod_width (hx : x < c.width) : mapIndex c x y % c.width = placeInRow c x y := by
  rw [mapIndex_eq_row_add_place, Nat.mul_comm, Nat.mul_add_mod, Nat.mod_eq_of_lt (placeInRow_lt hx)]

/-! ## The bijection -/

/-- The row of a cell is the quotient of its index, and the column follows from the remainder (R143). -/
theorem mapIndex_injective {x' y' : Nat} (hx : x < c.width) (hx' : x' < c.width)
    (h : mapIndex c x y = mapIndex c x' y') : x = x' ∧ y = y' := by
  have hrow : y = y' := by rw [← mapIndex_div_width (y := y) hx, h, mapIndex_div_width hx']
  subst hrow
  have hplace : placeInRow c x y = placeInRow c x' y := by
    rw [← mapIndex_mod_width hx, h, mapIndex_mod_width hx']
  refine ⟨?_, rfl⟩
  rw [← placeInRow_placeInRow (y := y) hx, hplace, placeInRow_placeInRow hx']

/-- The cell of an index: its row is the quotient, its column the remainder's place in that row. -/
theorem mapIndex_placeInRow_mod {i : Nat} (hw : 0 < c.width) :
    mapIndex c (placeInRow c (i % c.width) (i / c.width)) (i / c.width) = i := by
  rw [mapIndex_eq_row_add_place, placeInRow_placeInRow (Nat.mod_lt i hw), Nat.div_add_mod']

end

theorem coordInRange_eq_true_iff {c : MatrixCfg} {x y : Nat} :
    coordInRange c x y = true ↔ x < c.width ∧ y < c.height := by
  simp [coordInRange]

theorem coordInRange_eq_false_iff {c : MatrixCfg} {x y : Nat} :
    coordInRange c x y = false ↔ c.width ≤ x ∨ c.height ≤ y := by
  rw [← Bool.not_eq_true, coordInRange_eq_true_iff]
  omega

/-- Two writes to different entries can change places. -/
theorem Memory.read_write_comm {m : Memory} (h : Memory.wf m = true) {a b : Nat} (hab : a ≠ b) (d e : Color) (i : Nat) :
    Memory.read (Memory.write (Memory.write m a d) b e) i = Memory.read (Memory.write (Memory.write m b e) a d) i := by
  have ha := Memory.write_wf h a d
  have hb := Memory.write_wf h b e
  by_cases hib : i = b
  · rw [hib, Memory.read_write_same ha, Memory.read_write_other hb d hab.symm, Memory.read_write_same h]
  · rw [Memory.read_write_other ha e hib]
    by_cases hia : i = a
    · rw [hia, Memory.read_write_same h, Memory.read_write_same hb]
    · rw [Memory.read_write_other h d hia, Memory.read_write_other hb d hia, Memory.read_write_other h e hib]

/-- Settles O24: an index is a row and a place in the row, and both give the cell back; so two different cells are two
different entries, whose writes commute. -/
theorem mapIsABijection : Obligations.MapIsABijection := by
  intro c
  refine ⟨fun x y hx hy => ⟨?_, ?_, mapIndex_lt_ledCount (coordInRange_eq_true_iff.2 ⟨hx, hy⟩)⟩,
    fun x y x' y' hx _ hx' _ h => mapIndex_injective hx hx' h, fun i hi => ?_,
    fun m p q d e i hwf hpq hpx _ hqx _ => Memory.read_write_comm hwf (fun h => hpq ?_) d e i⟩
  · exact Nat.le_add_right _ _
  · exact Nat.add_le_add_left (Nat.le_sub_one_of_lt (placeInRow_lt hx)) _
  · have hw : 0 < c.width := Nat.pos_of_mul_pos_right (Nat.zero_lt_of_lt hi)
    exact ⟨_, _, placeInRow_lt (Nat.mod_lt i hw), Nat.div_lt_of_lt_mul hi, mapIndex_placeInRow_mod hw⟩
  · obtain ⟨hx, hy⟩ := mapIndex_injective hpx hqx h
    cases p; cases q; cases hx; cases hy; rfl

/-! ## Consecutive rows -/

/-- Settles O25: the column where a row ends has the last place of that row and the first place of the next one. -/
theorem rowsAreJoinedOnTheWire : Obligations.RowsAreJoinedOnTheWire := by
  intro c y hw x
  have hjoin : placeInRow c x y = c.width - 1 ∧ placeInRow c x (y + 1) = 0 := by
    by_cases heven : y % 2 = 0
    · have hx : x = c.width - 1 := if_pos heven
      rw [placeInRow_even heven, placeInRow_odd (by omega), hx]
      exact ⟨rfl, Nat.sub_self _⟩
    · have hx : x = 0 := if_neg heven
      rw [placeInRow_odd heven, placeInRow_even (by omega), hx]
      exact ⟨rfl, rfl⟩
  obtain ⟨hlast, hfirst⟩ := hjoin
  refine ⟨by simp [mapIndex_eq_row_add_place, placeInRow], ?_, ?_⟩
  · rw [mapIndex_eq_row_add_place, hlast]
  · rw [mapIndex_eq_row_add_place, mapIndex_eq_row_add_place, hlast, hfirst, Nat.succ_mul]
    omega

/-! ## SETXY -/

/-- Settles O23: a cell outside the matrix is reported, and a cell inside it has an entry of the buffer, which is written. -/
theorem setxyWritesOrReports : Obligations.SetxyWritesOrReports := by
  intro x y color s m hb hm hwf index
  rw [exec_setxy_eq_storeOrReport]
  refine ⟨fun hout => ?_, fun hx hy => ?_⟩
  · rw [coordInRange_eq_false_iff.2 hout]
    exact storeOrReport_outside hb
  · have hin := coordInRange_eq_true_iff.2 ⟨hx, hy⟩
    rw [hin]
    exact ⟨_, storeOrReport_inside hb hm (mapIndex_lt_ledCount hin), Memory.read_write_same hwf index color,
      fun _ hne => Memory.read_write_other hwf color hne⟩

end Sys2Proof.Machine
end

section
/-! PROOFS. The obligations about the host's pseudo-instructions: the cells RENDER and SHOWDIGIT expand to, and what executing
the expansion of RENDER does to the buffer. -/

namespace Sys2Proof.Machine

/-! ## The cells of a digit -/

/-- The order of R161: by row, and within a row by column. -/
def CellBefore (p q : Cell) : Prop := p.y < q.y ∨ (p.y = q.y ∧ p.x < q.x)

/-- The cells of row `y` of a matrix of `width` columns, columns ascending. -/
def rowCells (width y : Nat) : List Cell := (List.range width).map fun x => ⟨x, y⟩

theorem renderCells_eq_rows (c : Cfg) (digit : Nat) :
    renderCells c digit = (List.range c.height).flatMap fun y =>
      (rowCells c.width y).filter fun p => (glyphCells c.toPlatformCfg digit).contains p := rfl

theorem mem_rowCells {width y : Nat} {p : Cell} : p ∈ rowCells width y ↔ p.x < width ∧ p.y = y := by
  obtain ⟨px, py⟩ := p
  simp [rowCells, eq_comm]

theorem rowCells_pairwise (width y : Nat) : (rowCells width y).Pairwise CellBefore :=
  List.pairwise_map.2 (List.pairwise_lt_range.imp fun hlt => .inr ⟨rfl, hlt⟩)

/-- The cells listed for a digit are its on cells inside the geometry. -/
theorem mem_renderCells {c : Cfg} {digit : Nat} {p : Cell} :
    p ∈ renderCells c digit ↔ (p.x < c.width ∧ p.y < c.height) ∧ p ∈ glyphCells c.toPlatformCfg digit := by
  simp only [renderCells_eq_rows, List.mem_flatMap, List.mem_range, List.mem_filter, mem_rowCells,
    List.contains_iff_mem]
  constructor
  · rintro ⟨_, hy, ⟨hx, rfl⟩, hp⟩
    exact ⟨⟨hx, hy⟩, hp⟩
  · rintro ⟨⟨hx, hy⟩, hp⟩
    exact ⟨_, hy, ⟨hx, rfl⟩, hp⟩

/-- In a well-formed configuration every on cell is inside the geometry (R160), so every on cell is listed. -/
theorem mem_renderCells_iff_mem_glyphCells {c : Cfg} (h : c.wf = true) {digit : Nat} {p : Cell} :
    p ∈ renderCells c digit ↔ p ∈ glyphCells c.toPlatformCfg digit := by
  obtain ⟨-, -, hglyph⟩ := Cfg.wf_iff.1 h
  rw [mem_renderCells, and_iff_right_of_imp (glyphCell_inside hglyph)]

/-- Rows follow each other in rising order, and so do the columns within a row. -/
theorem renderCells_pairwise (c : Cfg) (digit : Nat) : (renderCells c digit).Pairwise CellBefore := by
  rw [renderCells_eq_rows, List.pairwise_flatMap]
  refine ⟨fun y _ => (rowCells_pairwise c.width y).filter _, List.pairwise_lt_range.imp ?_⟩
  intro y y' hlt p hp q hq
  obtain ⟨-, rfl⟩ := mem_rowCells.1 (List.mem_of_mem_filter hp)
  obtain ⟨-, rfl⟩ := mem_rowCells.1 (List.mem_of_mem_filter hq)
  exact .inl hlt

/-! ## The expansions -/

/-- One SETXY for each cell of a list. -/
def setxyCells (color : Color) (cells : List Cell) : List Instr := cells.map fun p => .setxy p.x p.y color

section
variable {digit : Nat} (c : Cfg) (color : Color)

theorem expandRender_of_gt (h : 9 < digit) : expandRender c digit color = .reported .errDigit := if_pos h

theorem expandRender_of_le (h : digit ≤ 9) :
    expandRender c digit color = .commands (setxyCells color (renderCells c digit)) := if_neg (Nat.not_lt.2 h)

theorem expandShowDigit_of_gt (h : 9 < digit) : expandShowDigit c digit color = .reported .errDigit := by
  rw [expandShowDigit, expandRender_of_gt c color h]

theorem expandShowDigit_of_le (h : digit ≤ 9) :
    expandShowDigit c digit color =
      .commands ([.clear] ++ setxyCells color (renderCells c digit) ++ [.commit]) := by
  rw [expandShowDigit, expandRender_of_le c color h]
  rfl

end

/-- Settles O41: the cells of an expansion are filtered out of all cells of the geometry in order, which keeps the order. -/
theorem glyphExpansionListsTheOnCells : Obligations.GlyphExpansionListsTheOnCells := by
  intro c digit color hwf
  refine ⟨fun hgt => ⟨expandRender_of_gt c color hgt, expandShowDigit_of_gt c color hgt⟩, fun hle => ?_⟩
  exact ⟨renderCells c digit, expandRender_of_le c color hle, expandShowDigit_of_le c color hle,
    fun _ => mem_renderCells_iff_mem_glyphCells hwf, renderCells_pairwise c digit⟩

/-! ## The buffer with cells painted -/

/-- The entry of a cell. -/
def cellIndex (c : MatrixCfg) (p : Cell) : Nat := mapIndex c p.x p.y

/-- The buffer after the entry of each cell took the color, one cell after the other. -/
def Memory.paint (c : MatrixCfg) (color : Color) (cells : List Cell) (m : Memory) : Memory :=
  cells.foldl (fun m p => Memory.write m (cellIndex c p) color) m

theorem Memory.paint_cons (c : MatrixCfg) (color : Color) (p : Cell) (cells : List Cell) (m : Memory) :
    Memory.paint c color (p :: cells) m = Memory.paint c color cells (Memory.write m (cellIndex c p) color) := rfl

/-- A painted cell reads the color, whichever of the writes to its entry came last; every other entry is as before. -/
theorem Memory.read_paint {m : Memory} (h : Memory.wf m = true) (c : MatrixCfg) (color : Color) (cells : List Cell)
    (i : Nat) :
    Memory.read (Memory.paint c color cells m) i =
      if i ∈ cells.map (cellIndex c) then color else Memory.read m i := by
  induction cells generalizing m with
  | nil => rfl
  | cons p cells ih =>
    rw [Memory.paint_cons, ih (Memory.write_wf h _ color)]
    by_cases hhead : i = cellIndex c p
    · simp [hhead, Memory.read_write_same h]
    · simp [hhead, Memory.read_write_other h color hhead]

/-! ## Executing the SETXY commands of a list of cells -/

/-- SETXY on a bound block that has its buffer, with a cell inside the geometry (R142). -/
theorem exec_setxy_inside {s : State} {m : Memory} {p : Cell} (hb : s.inst.bind.bound = true) (hm : s.inst.fb = some m)
    (hp : coordInRange s.inst.matrix p.x p.y = true) (color : Color) :
    exec (.setxy p.x p.y color) s =
      .next (retire .ok (setFb (Memory.write m (cellIndex s.inst.matrix p) color) s)) := by
  rw [exec_setxy_eq_storeOrReport, hp]
  exact storeOrReport_inside hb hm (mapIndex_lt_ledCount hp)

/-- The cells are painted, each command moves pc by one, and no other register but STATUS changes. -/
theorem execAll_setxyCells {s : State} {m : Memory} {cells : List Cell} (hb : s.inst.bind.bound = true)
    (hm : s.inst.fb = some m) (hcells : ∀ p ∈ cells, coordInRange s.inst.matrix p.x p.y = true) (color : Color) :
    ∃ t status, execAll (setxyCells color cells) s = .next t ∧
      t.inst = { s.inst with
        fb := some (Memory.paint s.inst.matrix color cells m), status := status, pc := s.inst.pc + cells.length } := by
  induction cells generalizing s m with
  | nil => exact ⟨s, s.inst.status, rfl, by rw [Memory.paint, List.foldl_nil, ← hm]; rfl⟩
  | cons p cells ih =>
    obtain ⟨hp, hrest⟩ := List.forall_mem_cons.1 hcells
    obtain ⟨t, status, hrun, ht⟩ :=
      ih (s := retire .ok (setFb (Memory.write m (cellIndex s.inst.matrix p) color) s)) hb rfl hrest
    refine ⟨t, status, ?_, ?_⟩
    · rw [setxyCells, List.map_cons, execAll, exec_setxy_inside hb hm hp, onNext_next]
      exact hrun
    · have hpc : s.inst.pc + 1 + cells.length = s.inst.pc + (cells.length + 1) := by omega
      simp [ht, Memory.paint_cons, hpc]

/-- Each of the commands, executed after those before it, retires with OK (R161). -/
theorem execAll_setxyCells_each {s : State} {m : Memory} {cells : List Cell} {color : Color}
    (hb : s.inst.bind.bound = true) (hm : s.inst.fb = some m)
    (hcells : ∀ p ∈ cells, coordInRange s.inst.matrix p.x p.y = true) {before after : List Instr} {i : Instr}
    (hsplit : setxyCells color cells = before ++ i :: after) :
    ∃ u v, execAll before s = .next u ∧ exec i u = .next v ∧ v.inst.status = 0x00 ∧ v.inst.pc = u.inst.pc + 1 := by
  obtain ⟨done, rest, rfl, rfl, hrest⟩ := List.map_eq_append_iff.1 hsplit
  obtain ⟨p, rest, rfl, rfl, rfl⟩ := List.map_eq_cons_iff.1 hrest
  obtain ⟨hdone, hp, -⟩ := by simpa only [List.forall_mem_append, List.forall_mem_cons] using hcells
  obtain ⟨u, status, hrun, hu⟩ := execAll_setxyCells hb hm hdone color
  refine ⟨u, _, hrun, exec_setxy_inside (by rw [hu]; exact hb) (by rw [hu]) (by rw [hu]; exact hp) color, rfl, rfl⟩

/-- Settles O42: the expansion is one SETXY for each on cell, all inside the geometry, and executing them paints the buffer. -/
theorem renderWritesExactlyTheOnCells : Obligations.RenderWritesExactlyTheOnCells := by
  intro s m digit color hwf hb hm hmwf hdigit
  have hmem {p : Cell} := mem_renderCells_iff_mem_glyphCells hwf (digit := digit) (p := p)
  have hcells : ∀ p ∈ renderCells (cfgOf s.platform s.inst) digit, coordInRange s.inst.matrix p.x p.y = true :=
    fun p hp => coordInRange_eq_true_iff.2 (mem_renderCells.1 hp).1
  obtain ⟨t, status, hrun, ht⟩ := execAll_setxyCells hb hm hcells color
  refine ⟨_, t, _, expandRender_of_le _ color hdigit, hrun, by rw [ht], fun p hp => ?_, fun i hi => ?_,
    fun before i after hsplit => execAll_setxyCells_each hb hm hcells hsplit, ?_, by rw [ht], by rw [ht]⟩
  · rw [Memory.read_paint hmwf]
    exact if_pos (List.mem_map.2 ⟨p, hmem.2 hp, rfl⟩)
  · rw [Memory.read_paint hmwf]
    refine if_neg fun hin => ?_
    obtain ⟨p, hp, hpi⟩ := List.mem_map.1 hin
    exact hi p (hmem.1 hp) hpi
  · rw [ht, setxyCells, List.length_map]

end Sys2Proof.Machine
end

section
/-! PROOFS. The obligations about COMMIT and single steps of the serializer: the order of the wire bits, what COMMIT starts,
the shift step, the latch step, and what each of them leaves. -/

namespace Sys2Proof.Machine

/-! ## The wire bits of a color -/

/-- The channel that bit `j` of a color belongs to (R173). -/
theorem wireChannel_div_eight (o : WireOrder) {j : Nat} (hj : j < 24) :
    wireChannel o (j / 8) = if j < 8 then o.first else if j < 16 then o.second else o.third := by
  unfold wireChannel
  have h0 : j / 8 = 0 ↔ j < 8 := by omega
  have h1 : ¬ j < 8 → (j / 8 = 1 ↔ j < 16) := by omega
  by_cases h : j < 8
  · simp [h0, h]
  · simp [h0, h, h1 h]

/-- Wire bit `j` is bit `7 - j mod 8` of the channel at its place (R173). -/
theorem wireBit_eq_channelBit (o : WireOrder) (c : Color) {j : Nat} (hj : j < 24) :
    wireBit o c j =
      (channelValue c (if j < 8 then o.first else if j < 16 then o.second else o.third)).getLsbD (7 - j % 8) := by
  rw [wireBit, wireChannel_div_eight o hj]

/-- The wire word holds the wire bits most significant first (R173). -/
theorem wireBit_eq_wireWordBit (o : WireOrder) (c : Color) {j : Nat} (hj : j < 24) :
    wireBit o c j = (wireWord o c).getLsbD (23 - j) := by
  have hbit : 7 - j % 8 < 8 := by omega
  rw [wireBit_eq_channelBit o c hj, wireWord, BitVec.getLsbD_append, BitVec.getLsbD_append]
  by_cases h8 : j < 8
  · have hpos : ¬ 23 - j < 8 ∧ ¬ 23 - j - 8 < 8 ∧ 23 - j - 8 - 8 = 7 - j % 8 := by omega
    simp [h8, hpos]
  · by_cases h16 : j < 16
    · have hpos : ¬ 23 - j < 8 ∧ 23 - j - 8 < 8 ∧ 23 - j - 8 = 7 - j % 8 := by omega
      simp [h8, h16, hpos, hbit]
    · have hpos : 23 - j < 8 ∧ 23 - j = 7 - j % 8 := by omega
      simp [h8, h16, hpos, hbit]

/-- Settles O30: bit `j` of the wire word counted from the left is bit `7 - j mod 8` of the channel at place `j div 8`. -/
theorem wireBitsFollowTheWireOrder : Obligations.WireBitsFollowTheWireOrder := by
  intro c j hj
  exact ⟨fun o => wireBit_eq_wireWordBit o c hj, fun o => wireBit_eq_channelBit o c hj, rfl, rfl, by decide, by decide⟩

/-! ## COMMIT -/

/-- COMMIT on a bound block starts the transmission (R171). -/
theorem exec_commit_of_bound {s : State} (hb : s.inst.bind.bound = true) :
    exec .commit s = .next (setSerializer .shift 0 0 s) := by
  rw [exec, execCommit, whenBound_bound hb]

/-- Settles O28: PHASE and the pointers are all that starting the transmission writes. -/
theorem commitStartsTheTransmission : Obligations.CommitStartsTheTransmission := fun _ hb => exec_commit_of_bound hb

/-- Settles O29: with a binding COMMIT starts the transmission, without one it raises F_UNBOUND. -/
theorem commitFrame : Obligations.CommitFrame := by
  intro s t h
  cases hb : s.inst.bind.bound with
  | true =>
    rw [exec_commit_of_bound hb] at h
    cases h
    exact ⟨rfl, fun _ => rfl, nofun⟩
  | false =>
    rw [exec, execCommit, whenBound_unbound hb] at h
    cases h
    exact ⟨rfl, nofun, fun _ => ⟨rfl, rfl, rfl⟩⟩

/-! ## The serializer's steps -/

/-- The step of an unfaulted serializer in SHIFT (R172). -/
theorem serializerStep_of_shift {s : State} (hf : s.inst.fault = 0) (hp : s.inst.phase = .shift) :
    serializerStep s = shiftStep s := by
  simp only [serializerStep, hf, hp, if_true]

/-- The step of an unfaulted serializer in LATCH (R172). -/
theorem serializerStep_of_latch {s : State} (hf : s.inst.fault = 0) (hp : s.inst.phase = .latch) :
    serializerStep s = .next (latchStep s) := by
  simp only [serializerStep, hf, hp, if_true]

/-- A shift step that finds its entry sends the bit and moves the pointers on (R174). -/
theorem shiftStep_of_some {s : State} {m : Memory} (hm : s.inst.fb = some m)
    (hk : s.inst.ledptr.toNat < ledCount s.inst.matrix) :
    shiftStep s = .next (advance (ledCount s.inst.matrix) s.inst.ledptr s.inst.bitptr
      (emit (.bit (wireBit s.inst.matrix.wireOrder (Memory.read m s.inst.ledptr.toNat) s.inst.bitptr.toNat)) s)) := by
  rw [shiftStep, fbRead_some hm hk]

/-- Settles O31: the three ways the pointers move on are the three cases of the rule. -/
theorem shiftStepSendsOneBit : Obligations.ShiftStepSendsOneBit := by
  intro s m hf hp hm k j sym hk _
  rw [serializerStep_of_shift hf hp, shiftStep_of_some hm hk]
  rcases advance_cases (s.inst.matrix.width * s.inst.matrix.height) k j (emit sym s) with
    ⟨hj, h⟩ | ⟨hj, hk', h⟩ | ⟨hj, hk', h⟩ <;> refine (congrArg Host.Outcome.next h).trans ?_
  · rw [if_pos hj, setSerializer, ← hp]; rfl
  · rw [if_neg (Nat.not_lt.2 hj), if_pos hk', setSerializer, ← hp]; rfl
  · rw [if_neg (Nat.not_lt.2 hj), if_neg (Nat.not_lt.2 hk')]; rfl

/-- Settles O32: an unfaulted serializer in LATCH takes the latch step, which writes these fields only. -/
theorem latchStepRetiresTheCommit : Obligations.LatchStepRetiresTheCommit := fun _ hf hp => serializerStep_of_latch hf hp

/-- Settles O36: each way a serializer's step can end writes these fields only, and only the latch step writes STATUS and pc. -/
theorem serializerFrame : Obligations.SerializerFrame := by
  intro s t h
  cases agentStep_of_serializerStep h with
  | held | nextBit | nextLed | lastBit => exact ⟨rfl, fun _ => ⟨rfl, rfl⟩⟩
  | latch hp => exact ⟨rfl, fun hne => absurd hp hne⟩

end Sys2Proof.Machine
end

section
/-! PROOFS. The obligations about a whole transmission: the bits of a frame one by one, the state after each shift step, and
the frame a COMMIT sends. -/

namespace Sys2Proof.Machine

/-! ## The bits of a frame -/

/-- `n` rows of `w` values, one row after the other, are the values at quotient and rest of their place. -/
theorem flatMap_range_map_range {α : Type} (f : Nat → Nat → α) {w : Nat} (hw : 0 < w) (n : Nat) :
    ((List.range n).flatMap fun k => (List.range w).map (f k)) =
      (List.range (w * n)).map fun i => f (i / w) (i % w) := by
  induction n with
  | zero => rfl
  | succ n ih =>
    rw [List.range_succ, List.flatMap_append, ih, Nat.mul_succ, List.range_add, List.map_append, List.map_map]
    congr 1
    rw [List.flatMap_singleton]
    refine List.map_congr_left fun j hj => ?_
    have hj' : j < w := List.mem_range.1 hj
    simp [Nat.mul_add_div hw, Nat.div_eq_of_lt hj', Nat.mod_eq_of_lt hj']

/-- The bits of a frame: bit `n` is wire bit `n mod 24` of entry `n div 24` (R173, R176). -/
def frameBits (c : MatrixCfg) (m : Memory) : List Bool :=
  (List.range (24 * ledCount c)).map fun n => wireBit c.wireOrder (Memory.read m (n / 24)) (n % 24)

@[simp] theorem frameBits_length (c : MatrixCfg) (m : Memory) : (frameBits c m).length = 24 * ledCount c := by
  simp [frameBits]

/-- The bits of every entry in physical index order are the bits of the frame. -/
theorem flatMap_entries_eq_frameBits (c : MatrixCfg) (m : Memory) :
    ((List.range (ledCount c)).flatMap fun k =>
      (List.range 24).map fun j => WireSym.bit (wireBit c.wireOrder (Memory.read m k) j)) =
      (frameBits c m).map .bit := by
  rw [flatMap_range_map_range (fun k j => WireSym.bit (wireBit c.wireOrder (Memory.read m k) j)) (by decide), frameBits,
    List.map_map]
  rfl

/-- The frame is its bits and one Latch (R176). -/
theorem frame_eq_frameBits (c : MatrixCfg) (m : Memory) : frame c m = (frameBits c m).map .bit ++ [.latch] := by
  rw [← flatMap_entries_eq_frameBits]
  rfl

/-- The first `n + 1` bits of a frame are the first `n` and bit `n mod 24` of entry `n div 24`. -/
theorem take_succ_frameBits (c : MatrixCfg) (m : Memory) {n : Nat} (hn : n < 24 * ledCount c) :
    (frameBits c m).take (n + 1) =
      (frameBits c m).take n ++ [wireBit c.wireOrder (Memory.read m (n / 24)) (n % 24)] := by
  rw [List.take_add_one, List.getElem?_eq_getElem (by simpa using hn)]
  simp [frameBits]

/-! ## The states of a transmission -/

/-- The LEDs of a well-formed matrix fit LEDPTR (R9, R28). -/
theorem ledCount_le {c : MatrixCfg} (h : c.wf = true) : ledCount c ≤ 2 ^ 32 := by
  obtain ⟨-, -, hcount, -⟩ := MatrixCfg.wf_bounds h
  exact hcount

/-- The state `n` bits after `s` started to send the buffer `m` (R174). -/
def sending (s : State) (m : Memory) (n : Nat) : State :=
  { s with inst := { s.inst with
      phase := .shift, ledptr := BitVec.ofNat 32 (n / 24), bitptr := BitVec.ofNat 5 (n % 24)
      wire := s.inst.wire ++ ((frameBits s.inst.matrix m).take n).map .bit } }

/-- Bit `n` goes out and the pointers take their next values. -/
theorem setSerializer_emit_sending {s : State} {m : Memory} {n : Nat} (hn : n < 24 * ledCount s.inst.matrix) (p : Phase)
    (k : BitVec 32) (j : BitVec 5) :
    setSerializer p k j
      (emit (.bit (wireBit s.inst.matrix.wireOrder (Memory.read m (n / 24)) (n % 24))) (sending s m n)) =
      { s with inst := { s.inst with
        phase := p, ledptr := k, bitptr := j
        wire := s.inst.wire ++ ((frameBits s.inst.matrix m).take (n + 1)).map .bit } } := by
  rw [take_succ_frameBits _ _ hn, List.map_append, ← List.append_assoc]
  rfl

/-- The state after `s` sent all bits of the buffer `m`, with the latch gap to come (R174). -/
def allBitsSent (s : State) (m : Memory) : State :=
  { s with inst := { s.inst with
      phase := .latch, ledptr := BitVec.ofNat 32 (ledCount s.inst.matrix - 1), bitptr := 0
      wire := s.inst.wire ++ (frameBits s.inst.matrix m).map .bit } }

/-- A launch stays inside the spec while a configuration, a binding and the peers stay. -/
theorem inSpec_congr {s t : State} (h : InSpec s) (hc : t.platform = s.platform) (hm : t.inst.matrix = s.inst.matrix)
    (hb : t.inst.bind = s.inst.bind) (hp : t.peers = s.peers) : InSpec t :=
  ⟨(cfgsWf_congr hc hm hp).trans h.1, (pinsDistinct_congr hb hp).trans h.2⟩

/-- With nothing scheduled it is a busy block's own serializer that moves (R172, R219). -/
theorem step_busy_unscheduled {s : State} (hspec : InSpec s) (hs : s.schedule = []) (hf : s.inst.fault = 0)
    (hp : s.inst.phase ≠ .idle) : step s = serializerStep s := by
  have hser : enabledActor s.inst = .serializer := by
    unfold enabledActor
    split
    · next hidle => exact absurd hidle hp
    · rfl
    · rfl
  have henabled : actorEnabled .serializer s.inst = true := actorEnabled_serializer_iff.2 ⟨hf, hp⟩
  rw [step_inSpec hspec.1 hspec.2, scheduledStep_nil hs (hser ▸ henabled), hser, runActor]

/-- A ready bound block that has its buffer stands at a COMMIT, on a launch inside the spec with nothing scheduled: the
hypotheses O33 and O34 share. -/
structure CommitAhead (s : State) (m : Memory) : Prop where
  inSpec : InSpec s
  unscheduled : s.schedule = []
  ready : Ready s.inst (encode .commit)
  bound : s.inst.bind.bound = true
  buffer : s.inst.fb = some m

section
variable {s : State} {m : Memory} (h : CommitAhead s m)
include h

/-- Its matrix has an LED, and no more LEDs than LEDPTR counts (R9, R28). -/
theorem CommitAhead.ledCount_bounds : 0 < ledCount s.inst.matrix ∧ ledCount s.inst.matrix ≤ 2 ^ 32 := by
  have hwf : s.inst.matrix.wf = true := (cfgsWf_parts h.inSpec.1).2 s.inst List.mem_cons_self
  exact ⟨ledCount_pos hwf, ledCount_le hwf⟩

/-- The shift step at bit `n` of a transmission: the pointers are those of bit `n + 1`, or after the last bit the latch gap
comes (R174). -/
theorem CommitAhead.step_sending {n : Nat} (hn : n < 24 * ledCount s.inst.matrix) :
    step (sending s m n) =
      .next (if n + 1 < 24 * ledCount s.inst.matrix then sending s m (n + 1) else allBitsSent s m) := by
  obtain ⟨-, hcount⟩ := h.ledCount_bounds
  obtain ⟨hf, -⟩ := h.ready
  have hspec : InSpec (sending s m n) := inSpec_congr h.inSpec rfl rfl rfl rfl
  have hk : (sending s m n).inst.ledptr.toNat = n / 24 := Nat.mod_eq_of_lt (by omega)
  have hj : (sending s m n).inst.bitptr.toNat = n % 24 := Nat.mod_eq_of_lt (by omega)
  have hentry : (sending s m n).inst.ledptr.toNat < ledCount (sending s m n).inst.matrix :=
    hk.trans_lt (Nat.div_lt_of_lt_mul hn)
  rw [step_busy_unscheduled hspec h.unscheduled hf Phase.noConfusion,
    serializerStep_of_shift (s := sending s m n) hf rfl, shiftStep_of_some (s := sending s m n) h.buffer hentry, hk, hj]
  refine congrArg Host.Outcome.next ?_
  rcases advance_cases (ledCount s.inst.matrix) (sending s m n).inst.ledptr (sending s m n).inst.bitptr
    (emit (.bit (wireBit s.inst.matrix.wireOrder (Memory.read m (n / 24)) (n % 24))) (sending s m n)) with
    ⟨hbit, hadv⟩ | ⟨hbit, hled, hadv⟩ | ⟨hbit, hled, hadv⟩ <;>
    refine (hadv.trans (setSerializer_emit_sending hn _ _ _)).trans ?_
  · have hquot : (n + 1) / 24 = n / 24 := by omega
    have hrest : (n + 1) % 24 = n % 24 + 1 := by omega
    rw [if_pos (by omega), sending, sending, hquot, hrest, BitVec.ofNat_add]
    rfl
  · have hquot : (n + 1) / 24 = n / 24 + 1 := by omega
    have hrest : (n + 1) % 24 = 0 := by omega
    rw [if_pos (by omega), sending, sending, hquot, hrest, BitVec.ofNat_add]
    rfl
  · have hlast : n + 1 = 24 * ledCount s.inst.matrix := by omega
    have hquot : n / 24 = ledCount s.inst.matrix - 1 := by omega
    rw [if_neg (by omega), List.take_of_length_le (by simp [hlast]), sending, allBitsSent, hquot]

/-- After all bits comes the latch step (R175). -/
theorem CommitAhead.step_allBitsSent : step (allBitsSent s m) = .next (latchStep (allBitsSent s m)) := by
  obtain ⟨hf, -⟩ := h.ready
  have hspec : InSpec (allBitsSent s m) := inSpec_congr h.inSpec rfl rfl rfl rfl
  rw [step_busy_unscheduled hspec h.unscheduled hf Phase.noConfusion,
    serializerStep_of_latch (s := allBitsSent s m) hf rfl]

/-- The COMMIT starts the transmission (R100, R171). -/
theorem CommitAhead.step_commit : step s = .next (sending s m 0) := by
  rw [step_ready_unscheduled h.inSpec h.ready h.unscheduled, hostStep_command h.ready (decode_encode rfl),
    exec_commit_of_bound h.bound, sending, List.take_zero, List.map_nil, List.append_nil]
  rfl

/-- After the COMMIT and `n` shift steps the first `n` bits are out (R174). -/
theorem CommitAhead.runSteps_bits {n : Nat} (hn : n < 24 * ledCount s.inst.matrix) :
    runSteps (n + 1) s = .next (sending s m n) := by
  induction n with
  | zero => rw [runSteps_succ (runSteps_zero s), h.step_commit]
  | succ n ih => rw [runSteps_succ (ih (by omega)), h.step_sending (by omega), if_pos hn]

/-- After the COMMIT and as many shift steps as the frame has bits all of them are out (R174, R176). -/
theorem CommitAhead.runSteps_allBits : runSteps (24 * ledCount s.inst.matrix + 1) s = .next (allBitsSent s m) := by
  obtain ⟨hpos, -⟩ := h.ledCount_bounds
  obtain ⟨n, hn⟩ : ∃ n, 24 * ledCount s.inst.matrix = n + 1 := ⟨24 * ledCount s.inst.matrix - 1, by omega⟩
  rw [hn, runSteps_succ (h.runSteps_bits (n := n) (by omega)), h.step_sending (by omega), if_neg (by omega)]

/-- One step more and the frame is out and the COMMIT retired (R175, R176). -/
theorem CommitAhead.runSteps_frame :
    runSteps (24 * ledCount s.inst.matrix + 1 + 1) s = .next { s with inst := { s.inst with
      pc := s.inst.pc + 1, status := 0x00, phase := .idle, ledptr := BitVec.ofNat 32 (ledCount s.inst.matrix - 1),
      bitptr := 0, wire := s.inst.wire ++ frame s.inst.matrix m } } := by
  rw [frame_eq_frameBits, ← List.append_assoc, runSteps_succ h.runSteps_allBits, h.step_allBitsSent]
  rfl

end

/-- Settles O33: a COMMIT and `n` shift steps lead to bit `n` of the transmission, and `24 * N` of them to its Latch. -/
theorem shiftProgressOfACommit : Obligations.ShiftProgressOfACommit := by
  intro s m n hspec hs hr hb hm total bitSyms
  have h : CommitAhead s m := ⟨hspec, hs, hr, hb, hm⟩
  have hbits : bitSyms = (frameBits s.inst.matrix m).map .bit := flatMap_entries_eq_frameBits s.inst.matrix m
  rw [hbits]
  refine ⟨fun hn => ?_, fun hn => ?_⟩
  · rw [← List.map_take]
    exact h.runSteps_bits hn
  · rw [hn]
    exact h.runSteps_allBits

/-- Settles O34: the COMMIT, the shift steps of all bits and the latch step send the frame. -/
theorem commitSendsTheWholeFrame : Obligations.CommitSendsTheWholeFrame := by
  intro s m hspec hs hr hb hm total
  have h : CommitAhead s m := ⟨hspec, hs, hr, hb, hm⟩
  rw [Nat.add_comm, List.append_assoc]
  exact h.runSteps_frame

end Sys2Proof.Machine
end

section
/-! PROOFS. The obligations about the pin and the LEDs: the two parts of a bit period, how long a frame lasts, the low parts
inside it, and the colors a chain shows after it. -/

namespace Sys2Proof.Machine

/-! ## Bit periods -/

section
variable {c : Cfg} (h : c.wf = true)
include h

/-- A 1 has the longer high time, and both fit a bit period (R9, R180). -/
theorem highTimes_of_wf : 0 < c.t0h ∧ c.t0h < c.t1h ∧ c.t1h < 1250 :=
  (PlatformCfg.wf_iff.1 (Cfg.wf_iff.1 h).1).2

/-- Both high times are nonzero (R180). -/
theorem highTime_pos (b : Bool) : 0 < highTime c b := by
  obtain ⟨h0, h1, -⟩ := highTimes_of_wf h
  cases b with
  | false => exact h0
  | true => exact h0.trans h1

/-- Both high times are shorter than a bit period (R9). -/
theorem highTime_lt (b : Bool) : highTime c b < 1250 := by
  obtain ⟨-, h1, hbit⟩ := highTimes_of_wf h
  cases b with
  | false => exact h1.trans hbit
  | true => exact hbit

theorem lowTime_pos (b : Bool) : 0 < lowTime c b := Nat.sub_pos_of_lt (highTime_lt h b)

theorem highTime_add_lowTime (b : Bool) : highTime c b + lowTime c b = 1250 :=
  Nat.add_sub_of_le (highTime_lt h b).le

/-- A 0 has the longer low time (R180). -/
theorem lowTime_le (b : Bool) : lowTime c b ≤ 1250 - c.t0h := by
  obtain ⟨-, h1, -⟩ := highTimes_of_wf h
  cases b with
  | false => exact le_rfl
  | true => exact Nat.sub_le_sub_left h1.le 1250

end

/-- Settles O37: the high and the low part of a bit. -/
theorem bitPeriodHasItsTwoParts : Obligations.BitPeriodHasItsTwoParts := by
  refine ⟨fun c n b h => ?_, fun c h => ?_, rfl, rfl, rfl, rfl⟩
  · exact ⟨highTime c b, lowTime c b, rfl, rfl, highTime_pos h b, lowTime_pos h b, highTime_add_lowTime h b⟩
  · obtain ⟨-, hlt, -⟩ := highTimes_of_wf h
    exact hlt

/-! ## How long a frame lasts -/

@[simp] theorem duration_nil : duration [] = 0 := rfl

@[simp] theorem duration_cons (level : Level) (ns : Nat) (segs : List Segment) :
    duration (⟨level, ns⟩ :: segs) = ns + duration segs := by
  simp [duration]

/-- Each bit adds one bit period (R180, R181). -/
theorem duration_lineTrace_bits {c : Cfg} (h : c.wf = true) (l : List Bool) (rest : List WireSym) (n : Nat) :
    duration (lineTrace c n (l.map .bit ++ rest)) = l.length * 1250 + duration (lineTrace c (n + l.length) rest) := by
  induction l generalizing n with
  | nil => simp
  | cons b l ih =>
    have hbit := highTime_add_lowTime h b
    have hpos : n + 1 + l.length = n + (l.length + 1) := by omega
    rw [List.map_cons, List.cons_append, lineTrace_bit, duration_cons, duration_cons, ih, List.length_cons, hpos]
    omega

/-- A frame lasts a bit period for each bit and the gap of its Latch (R176, R183). -/
theorem duration_frame {c : Cfg} (h : c.wf = true) (m : Memory) (n : Nat) :
    duration (lineTrace c n (frame c.toMatrixCfg m)) =
      24 * (c.width * c.height) * 1250 + latchGap c (n + 24 * ledCount c.toMatrixCfg) := by
  rw [frame_eq_frameBits, duration_lineTrace_bits h, frameBits_length]
  rfl

/-- Settles O38: the gap of a frame's Latch is at least T_RESET. -/
theorem frameLastsAtLeast : Obligations.FrameLastsAtLeast := by
  intro c m n h
  have hgap : c.tReset ≤ latchGap c (n + 24 * ledCount c.toMatrixCfg) := Nat.le_add_right _ _
  rw [duration_frame h]
  exact ⟨Nat.add_le_add_left hgap _, _, hgap, rfl⟩

/-- Among bits no low part is longer than a 0's (R182). -/
theorem low_le_of_mem_lineTrace_bits {c : Cfg} (h : c.wf = true) (l : List Bool) (n : Nat) :
    ∀ seg ∈ lineTrace c n (l.map .bit), seg.level = .low → seg.ns ≤ 1250 - c.t0h := by
  induction l generalizing n with
  | nil => exact nofun
  | cons b l ih =>
    rw [List.map_cons, lineTrace_bit, List.forall_mem_cons, List.forall_mem_cons]
    exact ⟨nofun, fun _ => lowTime_le h b, ih (n + 1)⟩

/-- Settles O39: each bit has one low part, none longer than a 0's, and lasts one bit period. -/
theorem noLongLowInsideAFrame : Obligations.NoLongLowInsideAFrame := by
  intro c l n h
  refine ⟨low_le_of_mem_lineTrace_bits h l n, ?_⟩
  rw [← List.append_nil (l.map _), duration_lineTrace_bits h, lineTrace_nil, duration_nil, Nat.add_zero]

/-! ## What the LEDs show -/

/-- A run of bits goes down the chain behind those that are pending (R188). -/
theorem foldl_chainStep_bits (l : List Bool) (v : ChainView) :
    (l.map WireSym.bit).foldl chainStep v = { v with pending := v.pending ++ l } := by
  induction l generalizing v with
  | nil => simp
  | cons b l ih => simp [ih, chainStep]

/-- After a frame the chain has latched its bits (R176, R188). -/
theorem chainView_append_frame {wire : List WireSym} (h : (chainView wire).pending = []) (c : MatrixCfg) (m : Memory) :
    chainView (wire ++ frame c m) = ⟨[], some (frameBits c m)⟩ := by
  have hfold : chainView (wire ++ frame c m) =
      chainStep (((frameBits c m).map .bit).foldl chainStep (chainView wire)) .latch := by
    simp [chainView, frame_eq_frameBits, List.foldl_append]
  rw [hfold, foldl_chainStep_bits, h]
  rfl

/-- LED `i` takes the wire bits of entry `i` (R173, R188). -/
theorem ledBits_frameBits (c : MatrixCfg) (m : Memory) {i : Nat} (hi : i < ledCount c) :
    ledBits i (frameBits c m) = (List.range 24).map (wireBit c.wireOrder (Memory.read m i)) := by
  refine List.ext_getElem ?_ fun j hj _ => ?_
  · rw [ledBits, List.length_take, List.length_drop, frameBits_length, List.length_map, List.length_range]
    omega
  · have hj' : j < 24 := by rw [ledBits, List.length_take] at hj; omega
    simp [ledBits, frameBits, Nat.mul_add_div, Nat.div_eq_of_lt hj', Nat.mod_eq_of_lt hj']

/-- The first `n` bits of a channel value, most significant first, as a number. -/
theorem foldl_msbFirst (x : Byte) {n : Nat} (hn : n ≤ 8) :
    ((List.range n).map fun j => x.getLsbD (7 - j)).foldl (fun acc b => 2 * acc + b.toNat) 0 = x.toNat / 2 ^ (8 - n) := by
  induction n with
  | zero => exact (Nat.div_eq_of_lt x.isLt).symm
  | succ n ih =>
    have hexp : 8 - n = 7 - n + 1 := by omega
    have hexp' : 8 - (n + 1) = 7 - n := by omega
    rw [List.range_succ, List.map_append, List.foldl_append, ih (by omega), hexp, hexp', Nat.pow_succ,
      ← Nat.div_div_eq_div_mul]
    simp only [List.map_cons, List.map_nil, List.foldl_cons, List.foldl_nil, BitVec.getLsbD, Nat.toNat_testBit]
    exact Nat.div_add_mod _ 2

/-- The eight bits of a channel value, most significant first, give it back. -/
theorem byteOfBits_msbFirst (x : Byte) : byteOfBits ((List.range 8).map fun j => x.getLsbD (7 - j)) = x := by
  rw [byteOfBits, foldl_msbFirst x le_rfl]
  simp

/-- Where WIRE_ORDER is a permutation, each channel stands at its place (R9, R173). -/
theorem wireChannel_channelPlace {o : WireOrder} (h : o.isPermutation = true) (ch : Channel) :
    channelPlace o ch < 3 ∧ wireChannel o (channelPlace o ch) = ch := by
  unfold channelPlace
  split
  · next hfirst => exact ⟨by decide, hfirst⟩
  · next hfirst =>
    split
    · next hsecond => exact ⟨by decide, hsecond⟩
    · next hsecond =>
      have hmem : ch ∈ [o.first, o.second, o.third] :=
        (wireOrder_perm_of_isPermutation h).mem_iff.2 (by cases ch <;> decide)
      have hthird : o.third = ch := by simpa [Ne.symm hfirst, Ne.symm hsecond, eq_comm] using hmem
      exact ⟨by decide, hthird⟩

/-- The byte at a place of WIRE_ORDER is the value of the channel there (R173). -/
theorem byteOfBits_wireBits (o : WireOrder) (c : Color) {p : Nat} (hp : p < 3) :
    byteOfBits ((((List.range 24).map (wireBit o c)).drop (8 * p)).take 8) = channelValue c (wireChannel o p) := by
  rw [← byteOfBits_msbFirst (channelValue c (wireChannel o p))]
  congr 1
  refine List.ext_getElem ?_ fun j hj _ => ?_
  · rw [List.length_take, List.length_drop, List.length_map, List.length_map, List.length_range, List.length_range]
    omega
  · have hj' : j < 8 := by rw [List.length_take] at hj; omega
    simp [wireBit, Nat.mul_add_div, Nat.div_eq_of_lt hj', Nat.mod_eq_of_lt hj']

/-- A chain with the block's channel order reads the color back from its wire bits (R173, R188). -/
theorem colorOfBits_wireBits {o : WireOrder} (h : o.isPermutation = true) (c : Color) :
    colorOfBits o ((List.range 24).map (wireBit o c)) = c := by
  have hbyte (ch : Channel) : byteOfBits ((((List.range 24).map (wireBit o c)).drop (8 * channelPlace o ch)).take 8) =
      channelValue c ch := by
    obtain ⟨hplace, hch⟩ := wireChannel_channelPlace h ch
    rw [byteOfBits_wireBits o c hplace, hch]
  simp only [colorOfBits, hbyte]
  rfl

/-- Settles O40: the chain has latched the frame's bits, LED `i` took those of entry `i`, and they give its color back. -/
theorem ledsShowTheCommittedFrame : Obligations.LedsShowTheCommittedFrame := by
  intro c m wire i hwf hpending hi
  rw [ledShows, chainView_append_frame hpending]
  simp [ledBits_frameBits c m hi, colorOfBits_wireBits (MatrixCfg.wf_wireOrder hwf)]

end Sys2Proof.Machine
end

section
/-! PROOFS. The obligation about fairness: every transmission under way comes to its end, because an enabled serializer stays
enabled until it moves, and each of its moves brings the end nearer. -/

namespace Sys2Proof.Machine

/-! ## Blocks by their number -/

/-- The event that is a step of an agent of block number `k`, the focused one being number 0 (R225). -/
def agentEvent (a : Actor) : Nat → Event
  | 0 => .own a
  | k + 1 => .peer k a

theorem serializerEvent_eq (k : Nat) : serializerEvent k = agentEvent .serializer k := by cases k <;> rfl

section
variable {s t : State} {k : Nat} {i : Inst} (h : step s = .next t) (hk : (allInsts s)[k]? = some i)
include h hk

/-- A step that is neither a reset nor a step of an agent of block number `k` leaves that block. -/
theorem step_other_keeps_inst (hn : NoReset s) (he : ∀ a, nextEvent s ≠ agentEvent a k) :
    (allInsts t)[k]? = some i := by
  cases k with
  | zero =>
    rcases step_focus_cases hn h with hi | ⟨a, ha, -⟩
    · exact (congrArg some hi).trans hk
    · exact absurd ha (he a)
  | succ k =>
    rcases step_peer_cases hn h hk with hi | ⟨a, -, ha, -⟩
    · exact hi
    · exact absurd ha (he a)

/-- An event of an agent of block number `k` is that agent's step with the block in focus. -/
theorem step_agentEvent {a : Actor} (he : nextEvent s = agentEvent a k) :
    ∃ u v, u.inst = i ∧ runActor a u = .next v ∧ (allInsts t)[k]? = some v.inst := by
  obtain ⟨-, -, hrun⟩ := step_next h
  rw [he] at hrun
  cases k with
  | zero => exact ⟨{ s with schedule := s.schedule.tail }, t, Option.some.inj hk, hrun, rfl⟩
  | succ k =>
    rcases peerStep_next hrun with ⟨hnone, -⟩ | ⟨p, t', hp, hr, -⟩
    · exact absurd (hnone.symm.trans hk) nofun
    · rw [agentEvent, runEvent, peerStep_some hp hr] at hrun
      cases hrun
      obtain rfl : p = i := Option.some.inj (hp.symm.trans hk)
      exact ⟨_, t', rfl, hr, List.getElem?_set_self (List.getElem?_eq_some_iff.1 hp).1⟩

/-- A busy block waits for its serializer: every other step but a reset leaves it (R58, R178). -/
theorem step_waits_for_serializer (hn : NoReset s) (hp : i.phase ≠ .idle) (he : nextEvent s ≠ serializerEvent k) :
    (allInsts t)[k]? = some i := by
  by_cases hhost : nextEvent s = agentEvent .host k
  · obtain ⟨u, v, rfl, hr, hv⟩ := step_agentEvent h hk hhost
    have hheld : actorEnabled .host u.inst = false := by simp [actorEnabled, hp]
    obtain rfl : u = v := Host.Outcome.next.inj ((runActor_held hheld).symm.trans hr)
    exact hv
  · refine step_other_keeps_inst h hk hn fun a => ?_
    cases a with
    | host => exact hhost
    | serializer => exact serializerEvent_eq k ▸ he

end

/-! ## Each move of the serializer brings the end nearer -/

/-- A bound on the serializer's steps to the end of a transmission, for any values of the pointers: BITPTR has 5 bits, so an
LED takes at most 32 shift steps, and LATCH takes one more (R174, R175). -/
def stepsLeft (i : Inst) : Nat :=
  match i.phase with
  | .idle => 0
  | .shift => 32 * (ledCount i.matrix - i.ledptr.toNat) + (32 - i.bitptr.toNat) + 1
  | .latch => 1

theorem stepsLeft_shift {i : Inst} (h : i.phase = .shift) :
    stepsLeft i = 32 * (ledCount i.matrix - i.ledptr.toNat) + (32 - i.bitptr.toNat) + 1 := by
  simp [stepsLeft, h]

theorem stepsLeft_latch {i : Inst} (h : i.phase = .latch) : stepsLeft i = 1 := by simp [stepsLeft, h]

/-- A shift step leaves the block busy at the same COMMIT and nearer to the end. -/
theorem shiftStep_nearer {s t : State} (hwf : s.inst.matrix.wf = true) (hp : s.inst.phase = .shift)
    (h : shiftStep s = .next t) :
    t.inst.phase ≠ .idle ∧ t.inst.fault = s.inst.fault ∧ t.inst.pc = s.inst.pc ∧ stepsLeft t.inst < stepsLeft s.inst := by
  obtain ⟨m, -, hk, rfl⟩ := shiftStep_next h
  have hcount := ledCount_le hwf
  have hj := s.inst.bitptr.isLt
  rw [stepsLeft_shift hp]
  rcases advance_cases (ledCount s.inst.matrix) s.inst.ledptr s.inst.bitptr (emit (.bit (wireBit s.inst.matrix.wireOrder
    (Memory.read m s.inst.ledptr.toNat) s.inst.bitptr.toNat)) s) with ⟨hbit, hadv⟩ | ⟨-, hled, hadv⟩ | ⟨-, -, hadv⟩ <;>
    rw [hadv]
  · have hnext : (s.inst.bitptr + 1).toNat = s.inst.bitptr.toNat + 1 := by bv_omega
    refine ⟨Phase.noConfusion, rfl, rfl, ?_⟩
    rw [stepsLeft_shift rfl]
    change 32 * (ledCount s.inst.matrix - s.inst.ledptr.toNat) + (32 - (s.inst.bitptr + 1).toNat) + 1 < _
    omega
  · have hnext : (s.inst.ledptr + 1).toNat = s.inst.ledptr.toNat + 1 := by bv_omega
    refine ⟨Phase.noConfusion, rfl, rfl, ?_⟩
    rw [stepsLeft_shift rfl]
    change 32 * (ledCount s.inst.matrix - (s.inst.ledptr + 1).toNat) + 32 + 1 < _
    omega
  · refine ⟨Phase.noConfusion, rfl, rfl, ?_⟩
    rw [stepsLeft_latch rfl]
    omega

/-- A move of an enabled serializer retires the COMMIT, or leaves the block busy with it and nearer to the end. -/
theorem serializerStep_nearer {s t : State} (hwf : s.inst.matrix.wf = true) (hf : s.inst.fault = 0)
    (hp : s.inst.phase ≠ .idle) (h : serializerStep s = .next t) :
    (t.inst.phase = .idle ∧ t.inst.pc = s.inst.pc + 1 ∧ t.inst.status = 0x00) ∨
    (t.inst.phase ≠ .idle ∧ t.inst.fault = 0 ∧ t.inst.pc = s.inst.pc ∧ stepsLeft t.inst < stepsLeft s.inst) := by
  cases hphase : s.inst.phase with
  | idle => exact absurd hphase hp
  | shift =>
    rw [serializerStep_of_shift hf hphase] at h
    exact .inr (hf ▸ shiftStep_nearer hwf hphase h)
  | latch =>
    rw [serializerStep_of_latch hf hphase] at h
    cases h
    exact .inl ⟨rfl, rfl, rfl⟩

/-! ## Fair runs -/

section
variable {r : Nat → State} {ev : Nat → Event} (hrun : IsRun r ev) (hnoreset : ∀ n, ev n ≠ .reset)
  {k n : Nat} {i : Inst} (hk : (allInsts (r n))[k]? = some i) (hp : i.phase ≠ .idle)
include hrun hnoreset hk hp

/-- A busy block stays as it is as long as its serializer does not move. -/
theorem run_waits_for_serializer {m : Nat} (hnm : n ≤ m) (hev : ∀ l, n ≤ l → l < m → ev l ≠ serializerEvent k) :
    (allInsts (r m))[k]? = some i := by
  induction m, hnm using Nat.le_induction with
  | base => exact hk
  | succ m hnm ih =>
    have hm := ih fun l hnl hlm => hev l hnl (Nat.lt_succ_of_lt hlm)
    exact step_waits_for_serializer (hrun m) hm (hnoreset m) hp (hev m hnm (Nat.lt_succ_self m))

/-- In a fair run the serializer of a busy unfaulted block moves, and finds the block as it was. -/
theorem run_serializer_moves (hfair : WeaklyFair r ev) (hf : i.fault = 0) :
    ∃ m, n ≤ m ∧ ev m = serializerEvent k ∧ (allInsts (r m))[k]? = some i := by
  have hmoves : ∃ m, n ≤ m ∧ ev m = serializerEvent k := by
    by_contra hnever
    have hev : ∀ l, n ≤ l → ev l ≠ serializerEvent k := fun l hnl hl => hnever ⟨l, hnl, hl⟩
    refine hnever (hfair k n fun m hnm => ⟨i, ?_, actorEnabled_serializer_iff.2 ⟨hf, hp⟩⟩)
    exact run_waits_for_serializer hrun hnoreset hk hp hnm fun l hnl _ => hev l hnl
  obtain ⟨hnm, hm⟩ := Nat.find_spec hmoves
  refine ⟨Nat.find hmoves, hnm, hm, run_waits_for_serializer hrun hnoreset hk hp hnm fun l hnl hlm hl => ?_⟩
  exact Nat.find_min hmoves hlm ⟨hnl, hl⟩

end

/-- In a fair run the serializer of a busy unfaulted block at last retires the COMMIT, or brings it nearer to its end. -/
theorem run_retires_or_nearer {r : Nat → State} {ev : Nat → Event} (hrun : IsRun r ev) (hfair : WeaklyFair r ev)
    (hnoreset : ∀ n, ev n ≠ .reset) {k n : Nat} {i : Inst} (hk : (allInsts (r n))[k]? = some i) (hf : i.fault = 0)
    (hp : i.phase ≠ .idle) :
    ∃ m j, n < m ∧ (allInsts (r m))[k]? = some j ∧
      ((j.phase = .idle ∧ j.pc = i.pc + 1 ∧ j.status = 0x00) ∨
       (j.phase ≠ .idle ∧ j.fault = 0 ∧ j.pc = i.pc ∧ stepsLeft j < stepsLeft i)) := by
  obtain ⟨m, hnm, hm, hkm⟩ := run_serializer_moves hrun hnoreset hk hp hfair hf
  have hstep := hrun m
  have hwf : i.matrix.wf = true := (cfgsWf_parts (step_next hstep).1).2 i (List.mem_of_getElem? hkm)
  obtain ⟨u, v, rfl, hr, hv⟩ := step_agentEvent hstep hkm (a := .serializer) (hm.trans (serializerEvent_eq k))
  exact ⟨m + 1, v.inst, Nat.lt_succ_of_le hnm, hv, serializerStep_nearer hwf hf hp hr⟩

/-- Settles O59, by strong induction on the bound of the steps that are left. -/
theorem everyCommitRetiresUnderWeakFairness : Obligations.EveryCommitRetiresUnderWeakFairness := by
  intro r ev hrun hfair hnoreset k n i hk hf hp
  induction hleft : stepsLeft i using Nat.strong_induction_on generalizing n i with
  | _ left ih =>
    obtain ⟨m, j, hnm, hj, ⟨hidle, hpc, hstatus⟩ | ⟨hbusy, hfault, hpc, hless⟩⟩ :=
      run_retires_or_nearer hrun hfair hnoreset hk hf hp
    · exact ⟨m, j, hnm, hj, hidle, hpc, hstatus⟩
    · obtain ⟨m', j', hmm', hj', hidle, hpc', hstatus⟩ := ih _ (hleft ▸ hless) m j hj hfault hbusy rfl
      exact ⟨m', j', hnm.trans hmm', hj', hidle, by rw [hpc', hpc], hstatus⟩

end Sys2Proof.Machine
end

section
/-! PROOFS. The obligations about faults and errors, about what the blocks and the environment leave to each other, and about
the observation port: a faulted block is frozen, a shared pin is refused, a block's step neither reads nor writes the other
blocks, and the environment keeps to its own slots. -/

namespace Sys2Proof.Machine

/-! ## Faulted blocks -/

/-- A step that is no reset leaves every faulted block: none of its agents is enabled (R217). -/
theorem step_keeps_stuck_inst {s t : State} {k : Nat} {i : Inst} (h : step s = .next t) (hk : (allInsts s)[k]? = some i)
    (hn : NoReset s) (hf : Stuck i) : (allInsts t)[k]? = some i := by
  by_cases he : ∃ a, nextEvent s = agentEvent a k
  · obtain ⟨a, he⟩ := he
    obtain ⟨u, v, rfl, hr, hv⟩ := step_agentEvent h hk he
    obtain rfl : u = v := Host.Outcome.next.inj ((runActor_held (actorEnabled_stuck hf a)).symm.trans hr)
    exact hv
  · exact step_other_keeps_inst h hk hn (not_exists.1 he)

/-- Settles O47: the focused block is block number 0, and the k-th peer is block number `k + 1`. -/
theorem faultedInstanceIsFrozen : Obligations.FaultedInstanceIsFrozen := by
  intro s t hn h
  refine ⟨fun hf => ?_, fun k p hk hf => ?_⟩
  · exact Option.some.inj (step_keeps_stuck_inst (k := 0) h rfl hn hf)
  · exact step_keeps_stuck_inst (k := k + 1) h hk hn hf

/-! ## Reported errors -/

/-- A reported error needs a binding and an operand outside, and no buffer (R212). -/
theorem exec_set_outside {s : State} {index : Nat} (hb : s.inst.bind.bound = true)
    (hout : ledCount s.inst.matrix ≤ index) (color : Color) : exec (.set index color) s = .next (retire .errIndex s) := by
  have hrange : indexInRange s.inst.matrix index = false := decide_eq_false (Nat.not_lt.2 hout)
  rw [exec_set_eq_storeOrReport, hrange, storeOrReport_outside hb]

theorem exec_setxy_outside {s : State} {x y : Nat} (hb : s.inst.bind.bound = true)
    (hout : s.inst.matrix.width ≤ x ∨ s.inst.matrix.height ≤ y) (color : Color) :
    exec (.setxy x y color) s = .next (retire .errCoord s) := by
  rw [exec_setxy_eq_storeOrReport, coordInRange_eq_false_iff.2 hout, storeOrReport_outside hb]

/-- Settles O26: both commands retire with the error's code. -/
theorem reportedErrorChangesStatusAndPcOnly : Obligations.ReportedErrorChangesStatusAndPcOnly := fun _ hb =>
  ⟨fun _ color hout => exec_set_outside hb hout color, fun _ _ color hout => exec_setxy_outside hb hout color⟩

/-! ## One enabled agent -/

/-- Settles O15: the serializer is held while PHASE is IDLE, and the host while it is not. -/
theorem hostAndSerializerAreNeverBothEnabled : Obligations.HostAndSerializerAreNeverBothEnabled := by
  intro s
  by_cases hp : s.inst.phase = .idle
  · exact .inr (runActor_held (actorEnabled_serializer_eq_false (.inr hp)))
  · exact .inl (runActor_held (actorEnabled_host_eq_false (.inr (.inr hp))))

/-! ## Shared pins -/

/-- No pin is shared when of any two blocks of the platform, both bound, the pins differ (R224). -/
theorem pinsDistinct_iff {s : State} : pinsDistinct s = true ↔
    (allInsts s).Pairwise fun i j => i.bind.bound = true → j.bind.bound = true → i.bind.pin ≠ j.bind.pin := by
  rw [pinsDistinct, decide_eq_true_eq, List.Nodup, List.pairwise_map, boundInsts, List.pairwise_filter]

/-- On a launch without a shared pin two bound blocks with the same pin are one (R224). -/
theorem eq_of_same_pin {s : State} (h : pinsDistinct s = true) {a b : Nat} {i j : Inst} (ha : (allInsts s)[a]? = some i)
    (hb : (allInsts s)[b]? = some j) (hi : i.bind.bound = true) (hj : j.bind.bound = true)
    (hpin : i.bind.pin = j.bind.pin) : a = b := by
  have hdiff := List.pairwise_iff_getElem.1 (pinsDistinct_iff.1 h)
  obtain ⟨ha', rfl⟩ := List.getElem?_eq_some_iff.1 ha
  obtain ⟨hb', rfl⟩ := List.getElem?_eq_some_iff.1 hb
  rcases Nat.lt_trichotomy a b with hlt | heq | hlt
  · exact absurd hpin (hdiff a b ha' hb' hlt hi hj)
  · exact heq
  · exact absurd hpin.symm (hdiff b a hb' ha' hlt hj hi)

/-- A launch with well-formed configurations and a shared pin refuses the step (R224). -/
theorem step_sharedPin {s : State} (hwf : cfgsWf s = true) (h : pinsDistinct s = false) :
    step s = .refused .sharedPin := by
  simp [step, platformStep, hwf, h]

/-- Settles O4: the two blocks have different numbers, so the launch has a shared pin. -/
theorem sharedPinLaunchIsRefused : Obligations.SharedPinLaunchIsRefused := by
  intro s a b i j hwf hab ha hb hi hj hpin
  exact step_sharedPin hwf (Bool.eq_false_iff.2 fun h => hab (eq_of_same_pin h ha hb hi hj hpin))

/-! ## A peer's step -/

/-- A step with an event scheduled is that event. -/
theorem step_scheduled {s : State} {e : Event} {es : List Event} (hspec : InSpec s) (hs : s.schedule = e :: es) :
    step s = runEvent e { s with schedule := es } := by
  rw [step_inSpec hspec.1 hspec.2, scheduledStep_cons hs]

/-- A step with nothing scheduled is the event that then comes. -/
theorem step_unscheduled {s : State} (hspec : InSpec s) (hs : s.schedule = []) :
    step s = runEvent (unscheduledEvent s) s := by
  have htail : { s with schedule := s.schedule.tail } = s := by rw [hs, List.tail_nil, ← hs]
  rw [step_inSpec hspec.1 hspec.2, scheduledStep, nextEvent_nil hs, htail]

/-- With the focused block held, the first peer with an enabled serializer moves (R187). -/
theorem unscheduledEvent_eq_peer {s : State} {k : Nat} {p : Inst}
    (hfocus : actorEnabled (enabledActor s.inst) s.inst = false) (hk : s.peers[k]? = some p)
    (hp : actorEnabled .serializer p = true)
    (hfirst : ∀ j q, j < k → s.peers[j]? = some q → actorEnabled .serializer q = false) :
    unscheduledEvent s = .peer k .serializer := by
  obtain ⟨hlt, rfl⟩ := List.getElem?_eq_some_iff.1 hk
  have hfind : s.peers.findIdx? (actorEnabled .serializer) = some k := by
    refine List.findIdx?_eq_some_iff_getElem.2 ⟨hlt, hp, fun j hj => ?_⟩
    exact Bool.eq_false_iff.1 (hfirst j _ hj (List.getElem?_eq_getElem (hj.trans hlt)))
  simp [unscheduledEvent, hfocus, hfind]

/-- Settles O11: the event is the peer's, and a peer's step is the agent's step with the peer in focus, put back. -/
theorem peerStepIsTheSameStepInItsPlace : Obligations.PeerStepIsTheSameStepInItsPlace := by
  refine ⟨fun s t k p a es hspec hs hk hr => ?_, fun s t k p hspec hs hfocus hk hf hp hfirst hr => ?_⟩
  · rw [step_scheduled hspec hs, runEvent]
    exact peerStep_some (s := { s with schedule := es }) hk hr
  · have hheld : actorEnabled (enabledActor s.inst) s.inst = false := by
      rcases hfocus with hstuck | ⟨hidle, hover⟩
      · exact actorEnabled_stuck hstuck _
      · exact actorEnabled_over hidle hover _
    have hevent := unscheduledEvent_eq_peer hheld hk (actorEnabled_serializer_iff.2 ⟨hf, hp⟩)
      fun j q hj hq => actorEnabled_serializer_eq_false (hfirst j q hj hq)
    rw [step_unscheduled hspec hs, hevent, runEvent]
    exact peerStep_some (a := .serializer) hk hr

/-! ## Other blocks are not read -/

/-- The platform with other peers. -/
def withPeers (ps : List Inst) (s : State) : State := { s with peers := ps }

@[simp] theorem withPeers_inst (ps : List Inst) (s : State) : (withPeers ps s).inst = s.inst := rfl

/-- An outcome with other peers in its next state; a stop has no peers. -/
def onPeers (ps : List Inst) (o : Out) : Out := onNext o fun t => .next (withPeers ps t)

section
variable (ps : List Inst)

/-- Going on with an operation that does not read the peers. -/
theorem onNext_onPeers {f : State → Out} (hf : ∀ t, f (withPeers ps t) = onPeers ps (f t)) (o : Out) :
    onNext (onPeers ps o) f = onPeers ps (onNext o f) := by
  cases o with
  | next t => exact hf t
  | fault r | refused r => rfl

/-- The check for a binding does not read the peers. -/
theorem whenBound_withPeers {s : State} {k k' : Out} (hk : k' = onPeers ps k) :
    whenBound (withPeers ps s) k' = onPeers ps (whenBound s k) := by
  cases hb : s.inst.bind.bound with
  | true => rw [whenBound_bound hb, whenBound_bound (s := withPeers ps s) hb, hk]
  | false => rw [whenBound_unbound hb, whenBound_unbound (s := withPeers ps s) hb]; rfl

theorem fbClear_withPeers (s : State) : fbClear (withPeers ps s) = onPeers ps (fbClear s) := by
  cases hm : s.inst.fb <;> simp only [fbClear, withPeers_inst, hm] <;> rfl

theorem fbWrite_withPeers (i : Nat) (c : Color) (s : State) :
    fbWrite i c (withPeers ps s) = onPeers ps (fbWrite i c s) := by
  cases hm : s.inst.fb with
  | none => simp only [fbWrite, withPeers_inst, hm]; rfl
  | some m => cases hi : indexInRange s.inst.matrix i <;> simp only [fbWrite, withPeers_inst, hm, hi] <;> rfl

theorem chosenSlot_withPeers (s : State) (u : UnitId) : chosenSlot (withPeers ps s) u = chosenSlot s u := by
  cases u <;> rfl

theorem bindSlot_withPeers (u : UnitId) (n pin : Nat) (s : State) :
    bindSlot u n pin (withPeers ps s) = withPeers ps (bindSlot u n pin s) := by
  cases u <;> rfl

/-- The store of SET and SETXY does not read the peers. -/
theorem storeOrReport_withPeers (inside : Bool) (a : Nat) (color : Color) (r : ResultCode) (s : State) :
    storeOrReport inside a color r (withPeers ps s) = onPeers ps (storeOrReport inside a color r s) := by
  refine whenBound_withPeers ps ?_
  cases inside with
  | true =>
    rw [if_pos rfl, if_pos rfl, fbWrite_withPeers]
    exact onNext_onPeers ps (fun _ => rfl) _
  | false => rfl

/-- INIT reads the claim table, not the peers (R61, R101). -/
theorem exec_init_withPeers (pin : Nat) (s : State) :
    exec (.init pin) (withPeers ps s) = onPeers ps (exec (.init pin) s) := by
  cases hb : s.inst.bind.bound with
  | true => rw [exec_init_of_bound pin hb, exec_init_of_bound (s := withPeers ps s) pin hb]; rfl
  | false =>
    cases hp : pinCapable s.platform pin with
    | false => rw [exec_init_of_incapable hb hp, exec_init_of_incapable (s := withPeers ps s) hb hp]; rfl
    | true =>
      cases hu : pickUnit s with
      | none => rw [exec_init_of_noUnit hb hp hu, exec_init_of_noUnit (s := withPeers ps s) hb hp hu]; rfl
      | some u =>
        rw [exec_init_of_unit hb hp hu, exec_init_of_unit (s := withPeers ps s) hb hp hu, chosenSlot_withPeers,
          bindSlot_withPeers]
        rfl

/-- No command reads the peers (R225). -/
theorem exec_withPeers (i : Instr) (s : State) : exec i (withPeers ps s) = onPeers ps (exec i s) := by
  cases i with
  | init pin => exact exec_init_withPeers ps pin s
  | clear =>
    refine whenBound_withPeers ps ?_
    rw [fbClear_withPeers]
    exact onNext_onPeers ps (fun _ => rfl) _
  | set index color => exact storeOrReport_withPeers ps _ index color .errIndex s
  | setxy x y color => exact storeOrReport_withPeers ps _ _ color .errCoord s
  | commit => exact whenBound_withPeers ps rfl

/-- A held agent is held whatever the peers are. -/
theorem runActor_held_withPeers {a : Actor} {s : State} (h : actorEnabled a s.inst = false) :
    runActor a (withPeers ps s) = onPeers ps (runActor a s) := by
  rw [runActor_held h, runActor_held (s := withPeers ps s) h]
  rfl

/-- No host's step reads the peers. -/
theorem hostStep_withPeers (s : State) : hostStep (withPeers ps s) = onPeers ps (hostStep s) := by
  cases hhost : actorEnabled .host s.inst with
  | false => exact runActor_held_withPeers ps hhost
  | true =>
    obtain ⟨hf, hp, w, hw⟩ := actorEnabled_host_iff.1 hhost
    have hr : Ready s.inst w := ⟨hf, hp, hw⟩
    have hr' : Ready (withPeers ps s).inst w := hr
    cases hd : decode w with
    | illegal why => rw [hostStep_illegal hr hd, hostStep_illegal hr' hd]; rfl
    | command i => rw [hostStep_command hr hd, hostStep_command hr' hd, exec_withPeers]

theorem advance_withPeers (n : Nat) (k : BitVec 32) (j : BitVec 5) (s : State) :
    advance n k j (withPeers ps s) = withPeers ps (advance n k j s) := by
  unfold advance
  split
  · rfl
  · split <;> rfl

theorem shiftStep_withPeers (s : State) : shiftStep (withPeers ps s) = onPeers ps (shiftStep s) := by
  have hread (i : Nat) : fbRead i (withPeers ps s) = fbRead i s := rfl
  cases hr : fbRead s.inst.ledptr.toNat s with
  | error r => simp only [shiftStep, withPeers_inst, hread, hr]; rfl
  | ok c =>
    simp only [shiftStep, withPeers_inst, hread, hr]
    exact congrArg Host.Outcome.next (advance_withPeers ps _ _ _ (emit _ s))

/-- No serializer's step reads the peers. -/
theorem serializerStep_withPeers (s : State) : serializerStep (withPeers ps s) = onPeers ps (serializerStep s) := by
  by_cases hheld : Stuck s.inst ∨ s.inst.phase = .idle
  · exact runActor_held_withPeers ps (actorEnabled_serializer_eq_false hheld)
  · obtain ⟨hf, hp⟩ : s.inst.fault = 0 ∧ s.inst.phase ≠ .idle := by simpa using hheld
    cases hphase : s.inst.phase with
    | idle => exact absurd hphase hp
    | shift =>
      rw [serializerStep_of_shift hf hphase, serializerStep_of_shift (s := withPeers ps s) hf hphase, shiftStep_withPeers]
    | latch => rw [serializerStep_of_latch hf hphase, serializerStep_of_latch (s := withPeers ps s) hf hphase]; rfl

/-- No agent's step reads the peers (R225). -/
theorem runActor_withPeers (a : Actor) (s : State) : runActor a (withPeers ps s) = onPeers ps (runActor a s) := by
  cases a with
  | host => exact hostStep_withPeers ps s
  | serializer => exact serializerStep_withPeers ps s

end

/-- Settles O51: an agent's step has the peers in its frame, and does not read them. -/
theorem otherInstancesAreNotSeenNorTouched : Obligations.OtherInstancesAreNotSeenNorTouched := by
  intro a s t ps h
  obtain ⟨-, hpeers, -⟩ := runActor_frame h
  exact ⟨hpeers, (runActor_withPeers ps a s).trans (congrArg (onPeers ps) h)⟩

/-! ## The environment -/

/-- The claim-table entry of a slot that is replaced. -/
theorem claimOf_setSlot_of_some {s : State} {u : UnitId} {n : Nat} {c : Claim} (h : claimOf s u n = some c) (v : Slot) :
    claimOf (setSlot u n v s) u n = some v.claim := by
  rw [claimOf, setSlot_getElem_same (claimOf_lt h), Option.map_some]

/-- What the environment does to the units where it replaces slot `n` of unit `u` by `v` under the condition `P` and else,
which is `Q`, changes nothing. -/
theorem setSlot_or_eq_frame {s t : State} {u : UnitId} {n : Nat} {v : Slot} {P Q : Prop}
    (h : (P ∧ t = setSlot u n v s) ∨ (Q ∧ t = s)) (hPQ : P → ¬ Q) (hP : P → ∃ c, claimOf s u n = some c) :
    (P → claimOf t u n = some v.claim) ∧
    (∀ w k, (w ≠ u ∨ k ≠ n ∨ Q) → (unitOf t w).slots[k]? = (unitOf s w).slots[k]?) ∧
    ∀ w, (unitOf t w).programLoaded = (unitOf s w).programLoaded ∧ (unitOf t w).progFits = (unitOf s w).progFits := by
  rcases h with ⟨hp, rfl⟩ | ⟨hq, rfl⟩
  · obtain ⟨c, hc⟩ := hP hp
    refine ⟨fun _ => claimOf_setSlot_of_some hc v, fun w k hother => setSlot_getElem_other ?_ v s,
      fun w => ⟨setSlot_programLoaded u w n v s, setSlot_progFits u w n v s⟩⟩
    exact hother.imp_right fun hk => hk.resolve_right (hPQ hp)
  · exact ⟨fun hp => absurd hq (hPQ hp), fun _ _ _ => rfl, fun _ => ⟨rfl, rfl⟩⟩

/-- Settles O50: a claim and a release replace one slot or nothing, and an answer is a field of its own. -/
theorem environmentKeepsToItsOwnSlots : Obligations.EnvironmentKeepsToItsOwnSlots := by
  intro s es hspec
  refine ⟨fun u slot claimer hs => ?_, fun u slot hs => ?_, fun u fits hs => ?_⟩ <;>
    refine ⟨_, step_scheduled hspec hs, ?_⟩
  · refine ⟨envClaimSlot_inst _ _ _ _, envClaimSlot_peers _ _ _ _, envClaimSlot_platform _ _ _ _,
      envClaimSlot_schedule _ _ _ _, ?_⟩
    exact setSlot_or_eq_frame (envClaimSlot_cases u slot claimer { s with schedule := es })
      (fun h h' => h' h) fun h => ⟨_, h⟩
  · refine ⟨envReleaseSlot_inst _ _ _, envReleaseSlot_peers _ _ _, envReleaseSlot_platform _ _ _,
      envReleaseSlot_schedule _ _ _, ?_⟩
    exact setSlot_or_eq_frame (envReleaseSlot_cases u slot { s with schedule := es })
      (fun ⟨c, h⟩ h' => h' c h) fun ⟨_, h⟩ => ⟨_, h⟩
  · refine ⟨envSetProgFits_inst _ _ _, envSetProgFits_peers _ _ _, envSetProgFits_platform _ _ _,
      envSetProgFits_schedule _ _ _, congrArg SigUnit.progFits (unitOf_setUnit_same u _ _),
      fun v hv => congrArg SigUnit.progFits (unitOf_setUnit_other hv _ _), fun v => ⟨?_, ?_⟩⟩
    · exact envSetProgFits_slots u v fits { s with schedule := es }
    · exact envSetProgFits_programLoaded u v fits { s with schedule := es }

/-! ## The observation port -/

theorem observeFb_of_bound {i : Inst} {m : Memory} {index : Nat} (hb : i.bind.bound = true) (hm : i.fb = some m)
    (hi : index < ledCount i.matrix) : observeFb i index = some (Memory.read m index) := by
  simp [observeFb, indexInRange, hb, hm, hi]

theorem observeFb_of_unbound {i : Inst} (hb : i.bind.bound = false) (index : Nat) : observeFb i index = none := by
  simp [observeFb, hb]

/-- Settles O60: a register narrower than 32 bits is widened, which keeps its number. -/
theorem portReadsTheState : Obligations.PortReadsTheState := by
  intro i
  have hwide {n : Nat} (x : BitVec n) (h : n ≤ 32) : (x.setWidth 32).toNat = x.toNat := BitVec.toNat_setWidth_of_le h
  refine ⟨rfl, hwide i.status (by decide), hwide i.fault (by decide), ?_, rfl, hwide i.bitptr (by decide),
    fun _ _ hb hm hi => observeFb_of_bound hb hm hi, fun index hb => observeFb_of_unbound hb index, rfl,
    fun _ _ _ => rfl⟩
  refine (hwide (phaseBits i.phase) (by decide)).trans ?_
  cases i.phase <;> rfl

end Sys2Proof.Machine
end

section
/-! PROOFS. The obligation about the order of use: what raises each fault, which words a well-formed program has before and
after its INIT is past, and that every agent's step keeps a block on its way through such a program. -/

namespace Sys2Proof.Machine

/-! ## What raises a fault -/

/-- An agent's step leaves FAULT, or raises the fault of the word at pc: an illegal word, a command that is no INIT without a
binding, an INIT with one, or an INIT without one that finds no usable unit or pin (R213, R218). -/
theorem runActor_fault_cases {a : Actor} {s t : State} (h : runActor a s = .next t) :
    t.inst.fault = s.inst.fault ∨
    ∃ f w, t = raiseFault f s ∧ fetch s.inst = some w ∧
      ((f = .illegal ∧ ∃ why, decode w = .illegal why) ∨
       (f = .unbound ∧ s.inst.bind.bound = false ∧ ∃ i, decode w = .command i ∧ ∀ pin, i ≠ .init pin) ∨
       (f = .reinit ∧ s.inst.bind.bound = true ∧ ∃ pin, decode w = .command (.init pin)) ∨
       ((f = .pin ∨ f = .noSlot) ∧ s.inst.bind.bound = false ∧ ∃ pin, decode w = .command (.init pin))) := by
  cases a with
  | serializer =>
    cases agentStep_of_serializerStep h with
    | held | nextBit | nextLed | lastBit | latch => exact .inl rfl
  | host =>
    rcases hostStep_next h with rfl | ⟨-, -, w, hw, ⟨why, hd, rfl⟩ | ⟨i, hd, h⟩⟩
    · exact .inl rfl
    · exact .inr ⟨.illegal, w, rfl, hw, .inl ⟨rfl, why, hd⟩⟩
    · rcases exec_next h with ⟨f, rfl, ⟨hf, hb, hi⟩ | ⟨pin, rfl, ⟨hf, hb⟩ | ⟨hb, hf⟩⟩⟩ | ⟨-, -, r, -, rfl⟩ |
        ⟨-, -, m, m', -, rfl, -⟩ | ⟨-, -, rfl⟩ | ⟨pin, u, -, -, -, -, rfl⟩
      · exact .inr ⟨f, w, rfl, hw, .inr (.inl ⟨hf, hb, i, hd, hi⟩)⟩
      · exact .inr ⟨f, w, rfl, hw, .inr (.inr (.inl ⟨hf, hb, pin, hd⟩))⟩
      · exact .inr ⟨f, w, rfl, hw, .inr (.inr (.inr ⟨hf, hb, pin, hd⟩))⟩
      · exact .inl rfl
      · exact .inl rfl
      · exact .inl rfl
      · exact .inl (by simp [bindSlot_inst])

/-! ## The words of a well-formed program -/

theorem isInitWord_iff {w : Word} : isInitWord w = true ↔ ∃ pin, decode w = .command (.init pin) := by
  unfold isInitWord
  split
  · next pin hd => simp [hd]
  · next hne => simpa using hne

theorem isUseWord_iff {w : Word} :
    isUseWord w = true ↔ ∃ i, decode w = .command i ∧ ∀ pin, i ≠ .init pin := by
  unfold isUseWord
  split
  · next pin hd => simp [hd]
  · next i hne hd => simpa [hd] using hne
  · next why hd => simp [hd]

/-- At pc 0 a well-formed program has its INIT (R244). -/
theorem decode_init_of_orderOfUse {i : Inst} {w : Word} (h : orderOfUse i.prog = true) (hpc : i.pc = 0)
    (hw : fetch i = some w) : ∃ pin, decode w = .command (.init pin) := by
  rw [fetch, hpc] at hw
  cases hprog : i.prog with
  | nil => simp [hprog] at hw
  | cons v vs =>
    obtain rfl : v = w := by simpa [hprog] using hw
    rw [hprog, orderOfUse, Bool.and_eq_true] at h
    exact isInitWord_iff.1 h.1

/-- Past pc 0 a well-formed program has commands other than INIT only (R244). -/
theorem decode_use_of_orderOfUse {i : Inst} {w : Word} (h : orderOfUse i.prog = true) (hpc : 1 ≤ i.pc)
    (hw : fetch i = some w) : ∃ c, decode w = .command c ∧ ∀ pin, c ≠ .init pin := by
  obtain ⟨n, hn⟩ := Nat.exists_eq_add_of_le' hpc
  rw [fetch, hn] at hw
  cases hprog : i.prog with
  | nil => simp [hprog] at hw
  | cons v vs =>
    have hmem : w ∈ vs := List.mem_of_getElem? (by simpa [hprog] using hw)
    rw [hprog, orderOfUse, Bool.and_eq_true, List.all_eq_true] at h
    exact isUseWord_iff.1 (h.2 w hmem)

/-! ## Every step keeps the order of use -/

theorem orderly_of_bound {i : Inst} (hprog : orderOfUse i.prog = true) (hb : i.bind.bound = true) (hpc : 1 ≤ i.pc)
    (hf : i.fault = 0) : Orderly i :=
  ⟨hprog, fun _ => ⟨hpc, hf⟩, fun hb' => by simp [hb] at hb'⟩

theorem orderly_of_unbound {i : Inst} (hprog : orderOfUse i.prog = true) (hb : i.bind.bound = false) (hpc : i.pc = 0)
    (hp : i.phase = .idle)
    (hf : i.fault = 0 ∨ i.fault = FaultCode.noSlot.code ∨ i.fault = FaultCode.pin.code) : Orderly i :=
  ⟨hprog, fun hb' => by simp [hb] at hb', fun _ => ⟨hpc, hp, hf⟩⟩

/-- The reset event puts a block before the INIT of its program, which it keeps (R240). -/
theorem Orderly.after_resetInst {i : Inst} (h : Orderly i) : Orderly (resetInst i) :=
  orderly_of_unbound h.1 rfl rfl rfl (.inl rfl)

/-- On a well-formed program the word at pc raises no fault but INIT's own, and that before the binding: an unbound block is at
its INIT, and a bound one past it (R244). -/
theorem Orderly.fault_cases {a : Actor} {s t : State} (hs : Orderly s.inst) (h : runActor a s = .next t) :
    t.inst.fault = s.inst.fault ∨
    (s.inst.bind.bound = false ∧ ∃ f, (f = .pin ∨ f = .noSlot) ∧ t = raiseFault f s) := by
  obtain ⟨hprog, hbound, hunbound⟩ := hs
  refine (runActor_fault_cases h).imp_right ?_
  rintro ⟨f, w, rfl, hw, hcause⟩
  cases hb : s.inst.bind.bound with
  | true =>
    obtain ⟨c, hd, hc⟩ := decode_use_of_orderOfUse hprog (hbound hb).1 hw
    simp [hb, hd, hc] at hcause
  | false =>
    obtain ⟨pin, hd⟩ := decode_init_of_orderOfUse hprog (hunbound hb).1 hw
    exact ⟨rfl, f, by simpa [hb, hd] using hcause, rfl⟩

/-- A step that leaves FAULT does not go back before the INIT: it keeps a bound block bound and pc from falling, and an unbound
idle block where it is, or binds it at the INIT, which retires. -/
theorem AgentStep.orderly {a : Actor} {s t : State} (h : AgentStep s a t) (hs : Orderly s.inst)
    (hprog : t.inst.prog = s.inst.prog) (hfault : t.inst.fault = s.inst.fault) : Orderly t.inst := by
  obtain ⟨hs, hbound, hunbound⟩ := hs
  rw [← hprog] at hs
  rw [← hfault] at hbound hunbound
  cases hb : s.inst.bind.bound with
  | true =>
    obtain ⟨hpc, hf⟩ := hbound hb
    rcases h.bind_cases with ⟨hbind, -⟩ | ⟨-, -, -, hb', -⟩
    · refine orderly_of_bound hs (hbind ▸ hb) ?_ hf
      rcases h.pc_cases with ⟨hpc', -⟩ | ⟨hpc', -⟩ <;> omega
    · simp [hb] at hb'
  | false =>
    obtain ⟨hpc, hp, hf⟩ := hunbound hb
    cases h with
    | held | fault => exact orderly_of_unbound hs hb hpc hp hf
    | bind w pin u hf₀ =>
      exact orderly_of_bound hs (by simp [bindSlot_inst]) (by simp [bindSlot_inst]) (hfault.trans hf₀)
    | report _ _ _ _ hb' | write _ _ _ _ _ hb' | start _ _ hb' => simp [hb] at hb'
    | nextBit _ hp' | nextLed _ hp' | lastBit _ hp' | latch hp' => simp [hp] at hp'

/-- Every agent's step keeps its block on its way through a well-formed program. -/
theorem Orderly.after_runActor {a : Actor} {s t : State} (hs : Orderly s.inst) (h : runActor a s = .next t) :
    Orderly t.inst := by
  rcases hs.fault_cases h with hfault | ⟨hb, f, hf, rfl⟩
  · obtain ⟨-, -, -, -, -, hprog⟩ := runActor_frame h
    exact (agentStep_of_runActor h).orderly hs hprog hfault
  · obtain ⟨hprog, -, hunbound⟩ := hs
    obtain ⟨hpc, hp, -⟩ := hunbound hb
    refine orderly_of_unbound hprog hb hpc hp (.inr ?_)
    rcases hf with rfl | rfl
    · exact .inr rfl
    · exact .inl rfl

/-- Settles O58: reset goes back before the INIT and every agent's step keeps its block on its way. -/
theorem orderlyProgramsOnlyFaultAtInit : Obligations.OrderlyProgramsOnlyFaultAtInit := by
  intro s t hs h
  exact step_keeps_everyInst (P := fun _ i => Orderly i) (fun _ _ => Orderly.after_resetInst)
    (fun _ _ _ _ _ hi hr => hi.after_runActor hr) hs h

end Sys2Proof.Machine
end
